-- ==== Sys2Proof/Word.lean ====
section
/-! DEFINITION. The word types of the block and the operators of 00_scope.md R7. -/

namespace Sys2Proof

/-- A value of the state register `S`, or a command's operand field: 32 bits, unsigned (R5 `XLEN`, R6 `ARGW`). -/
abbrev Word := BitVec 32

/-- A command word `CW`: 40 bits (R6 `CWLEN`, R32). -/
abbrev CmdWord := BitVec 40

/-- An opcode: 8 bits (R6 `OPW`). -/
abbrev Opcode := BitVec 8

/-- `zext_N` of a single bit (R7): the `N`-bit number 0 or 1. -/
abbrev zextBit (N : Nat) (b : Bool) : BitVec N := (BitVec.ofBool b).setWidth N

end Sys2Proof
end

