-- ==== Sys2Proof/Config.lean ====
section
/-! DEFINITION. What an instance of the block fixes when it is built: the parameter `W` the spec leaves
open and the constants of 00_scope.md R5 and R6 that no conflict touches. The shift amounts stand in
Machine/Ops.lean, beside the transition they belong to (90_conflicts.md C1, log 2). -/

namespace Sys2Proof

/-- `W`, the width of the accumulator: any natural number from 8 on (R6, 92_eei_decisions.md D15).
DESIGN CHOICE (log 1): a parameter that every instance carries; nothing in the model fixes it. -/
structure Width where
  W  : Nat
  ok : 8 ≤ W
  deriving DecidableEq, Repr

/-- The reference value 32 that R6 gives for examples. -/
def Width.reference : Width := ⟨32, by decide⟩

/-- `CNTW`: the smallest `k` with `2^k > W` (R6, D16). -/
abbrev cntw (W : Nat) : Nat := Nat.log2 W + 1

/-- `DEFAULT_SEED`: the state after default construction and after reset (R5). -/
def DEFAULT_SEED : Word := 0x00000001

end Sys2Proof
end

