-- ==== Sys2Proof/Machine/State.lean ====
section
/-! DEFINITION. The machine's state: the four registers of 10_state.md section 8, the instance's
parameter `W`, and the host's coming moves. Plain data throughout. -/

namespace Sys2Proof.Machine

/-- The registers of an instance whose accumulator is `W` bits wide. -/
structure Regs (W : Nat) where
  /-- `prng_state_register` (R10). -/
  S    : Word
  /-- the register of the `bit_accumulator_mux` (R12). -/
  ACC  : BitVec W
  /-- the bits the command in flight has still to extract; 0 when none is in flight (R13). -/
  CNT  : BitVec (cntw W)
  /-- 1 during the cycle after the edge at which a command completed (R14). -/
  DONE : Bool
  deriving DecidableEq, Repr

/-- The values of the input pins at one rising edge (R23). -/
structure Pins where
  rst      : Bool
  cmdValid : Bool
  cmdWord  : CmdWord
  deriving DecidableEq, Repr

/-- One move of the host, or of the power supply (R84, R85). DESIGN CHOICE (log 3). -/
inductive HostInput where
  /-- Cycle level (R84): the pins at one rising edge. -/
  | edge (p : Pins)
  /-- Command level (R84): one command, presented and held until it is accepted (R77), then run to
  completion with `rst = 0` (R29, R76). DEDUCED (log 4). -/
  | command (w : CmdWord)
  /-- Power is removed and applied again: the registers hold unspecified values, here any the input
  names (R20, R72, 93_implementation_defined.md U4; log 7). -/
  | powerUp (S : Word) (ACC CNT : Nat) (DONE : Bool)
  deriving DecidableEq, Repr

/-- The hardware raises nothing and stops for nothing (60_exceptions.md R60), so there is no fault
(log 10). -/
inductive Fault
  deriving DecidableEq, Repr

/-- The model outcomes `refuse(reason)` of R9, and the stops that are the model's own. A refusal gives
the step no result; all of them are safe. -/
inductive Refusal where
  /-- An instruction without a meaning, refused by its arm of `exec`. None is left; safe. -/
  | notModelled (mnemonic : String)
  /-- `SEED 0` (R41, R79): raised by the meaning of `SEED` and by its acceptance at an edge; safe. -/
  | zeroSeed
  /-- `BITS n` with `n > W` (R54, R80): raised by the meaning of `BITS` and by its acceptance at an
  edge; safe. -/
  | countExceedsWidth
  /-- An accepted command word with opcode `0x05` to `0xFF` (R36): raised where a command word is
  decoded; safe. -/
  | reservedOpcode
  /-- An edge with `rst = 0`, or a command, before the first reset edge after power-up (R72): raised by
  the step; safe. -/
  | beforeReset
  deriving DecidableEq, Repr

/-- The machine: one instance of the block, and what its host will do next. -/
structure State where
  /-- The instance's parameter `W` (R6); no step changes it (log 1). -/
  width  : Width
  /-- The four registers (R10, R12, R13, R14). -/
  regs   : Regs width.W
  /-- Whether a reset edge has happened since power was applied (R72; log 6). -/
  live   : Bool
  /-- The host's coming moves, the next one first; when there is none the host presents nothing
  (log 3). -/
  inputs : List HostInput
  deriving DecidableEq, Repr

/-- The register values after reset (R21, R70). -/
def Regs.reset {W : Nat} : Regs W := { S := DEFAULT_SEED, ACC := 0, CNT := 0, DONE := false }

/-- An instance of width `W` right after a reset edge, with a host that presents nothing. -/
def State.resetOf (width : Width) : State :=
  { width := width, regs := Regs.reset, live := true, inputs := [] }

/-- The reference instance (`W = 32`, R6) right after a reset edge (R21). DESIGN CHOICE of the width
only (log 1). -/
def State.reset : State := State.resetOf Width.reference

end Sys2Proof.Machine
end

