-- ==== Sys2Proof/Machine/Ops.lean ====
section
/-! DEFINITION. The shared operations: the state transition (41_state_transition.md), the bit primitive
and the accumulation (42_extraction.md), the two input multiplexers (30_encoding.md R38) and the one
write of all four registers at a clock edge. No memory operation and no exception entry: the block has
neither (20_memory.md R22, 60_exceptions.md R60, R64). -/

namespace Sys2Proof.Machine

/-! ### The transition -/

/-- First shift amount, left (R5; 90_conflicts.md C1, log 2). -/
def SH_A : Nat := 13

/-- Second shift amount, right (R5; 90_conflicts.md C1, log 2). -/
def SH_B : Nat := 17

/-- Third shift amount, left (R5). -/
def SH_C : Nat := 5

/-- Index of the state bit that is the output bit (R5). -/
def OUT_BIT : Nat := 0

/-- Number of bits the command `BYTE` extracts (R5). -/
def BYTE_N : Nat := 8

/-- First line of the transition: `t1 = x ^ (x << 13)` (R45). -/
def mixA (x : Word) : Word := x ^^^ (x <<< SH_A)

/-- Second line of the transition: `t2 = t1 ^ (t1 >> 17)` (R45). -/
def mixB (x : Word) : Word := x ^^^ (x >>> SH_B)

/-- Third line of the transition: `t3 = t2 ^ (t2 << 5)` (R45). -/
def mixC (x : Word) : Word := x ^^^ (x <<< SH_C)

/-- The state transition: the three lines in that order, each reading the one before (R45). -/
def step32 (x : Word) : Word := mixC (mixB (mixA x))

/-- The inverse of the transition that R47 gives. -/
def unstep32 (y : Word) : Word :=
  let u := y ^^^ (y <<< 5) ^^^ (y <<< 10) ^^^ (y <<< 15) ^^^ (y <<< 20) ^^^ (y <<< 25) ^^^ (y <<< 30)
  let v := u ^^^ (u >>> 17)
  v ^^^ (v <<< 13) ^^^ (v <<< 26)

/-- The output bit of a state: its bit 0 (R49, R50). -/
def outBit (x : Word) : Bool := x.getLsbD OUT_BIT

/-! ### The primitive and the accumulation -/

/-- `nextbit()`: the state after one transition, and bit 0 of that NEW state (R50). -/
def nextbit (x : Word) : Word × Bool := (step32 x, outBit (step32 x))

/-- `(ACC << 1) | zext_W(b)` at width `W` (R38 `A_SHIFT`, R46, R52). -/
def shiftIn {W : Nat} (acc : BitVec W) (b : Bool) : BitVec W := (acc <<< 1) ||| zextBit W b

/-- `repeat n times { b = nextbit(); ACC <- (ACC << 1) | zext_W(b) }` from state `x` and accumulator
`acc` (R52): the state and the accumulator after it. -/
def extract {W : Nat} : Nat → Word → BitVec W → Word × BitVec W
  | 0, x, acc => (x, acc)
  | n + 1, x, acc => extract n (nextbit x).1 (shiftIn acc (nextbit x).2)

/-- The registers when a command has completed: the state, the result in `ACC`, nothing in flight, and
`DONE` set for its one cycle (R14, R40, R76). -/
def completed {W : Nat} (S : Word) (ACC : BitVec W) : Regs W :=
  { S := S, ACC := ACC, CNT := 0, DONE := true }

/-- The whole effect of an extraction command of `n` bits on the registers: clear `ACC`, extract `n`
bits, present `ACC` as the result (R51, R52, R53). -/
def extraction {W : Nat} (n : Nat) (r : Regs W) : Regs W :=
  completed (extract n r.S (0 : BitVec W)).1 (extract n r.S (0 : BitVec W)).2

/-! ### The multiplexers and the registers' common write -/

/-- The select of the `prng_state_register` input, `S_SEL` (R38). -/
inductive SSel where
  | hold | default | seed | step
  deriving DecidableEq, Repr

/-- The select of the `bit_accumulator_mux`, `A_SEL` (R38). -/
inductive ASel where
  | hold | clear | shift
  deriving DecidableEq, Repr

/-- Next `S` (R38); `arg` is `CW[31:0]`. -/
def sMux (sel : SSel) (S arg : Word) : Word :=
  match sel with
  | .hold => S
  | .default => DEFAULT_SEED
  | .seed => arg
  | .step => step32 S

/-- Next `ACC` (R38). The bit shifted in is bit 0 of `step32(S)`. -/
def aMux {W : Nat} (sel : ASel) (ACC : BitVec W) (S : Word) : BitVec W :=
  match sel with
  | .hold => ACC
  | .clear => 0
  | .shift => shiftIn ACC (outBit (step32 S))

/-- What one edge does: the two selects and the next values of `CNT` and `DONE` (R75). -/
structure Controls (W : Nat) where
  sSel : SSel
  aSel : ASel
  cnt  : BitVec (cntw W)
  done : Bool
  deriving DecidableEq, Repr

/-- The write of all four registers at one edge: every right-hand side reads the value before the edge
(R75). -/
def latch {W : Nat} (c : Controls W) (arg : Word) (r : Regs W) : Regs W :=
  { S := sMux c.sSel r.S arg, ACC := aMux c.aSel r.ACC r.S, CNT := c.cnt, DONE := c.done }

/-- The machine with other register values; nothing else changes. -/
def State.setRegs (s : State) (r : Regs s.width.W) : State := { s with regs := r }

/-- The machine with other coming moves of the host; nothing else changes. -/
def State.setInputs (s : State) (l : List HostInput) : State := { s with inputs := l }

/-- The machine after power was removed and applied: any register values, no reset edge yet (R72; log 7). -/
def State.powerUp (s : State) (S : Word) (ACC CNT : Nat) (DONE : Bool) : State :=
  { s with
    regs := { S := S, ACC := BitVec.ofNat _ ACC, CNT := BitVec.ofNat _ CNT, DONE := DONE }
    live := false }

end Sys2Proof.Machine
end

