-- ==== Sys2Proof/Machine/Flags.lean ====
section
/-! DEFINITION. The block has no flags (10_state.md R17). In their place stand the conditions and
outputs a host can see: `BUSY`, `cmd_ready`, `rsp_valid`, `rsp_data`, each a function of the registers
alone (R15, R74). -/

namespace Sys2Proof.Machine

/-- `BUSY`: the condition `CNT != 0` (R15). -/
def Regs.busy {W : Nat} (r : Regs W) : Bool := r.CNT != 0

/-- The output pins (R23). -/
structure Outputs (W : Nat) where
  cmdReady : Bool
  rspValid : Bool
  rspData  : BitVec W
  deriving DecidableEq, Repr

/-- `cmd_ready = (CNT == 0)`, `rsp_valid = DONE`, `rsp_data = ACC` (R23, R74). -/
def Regs.outputs {W : Nat} (r : Regs W) : Outputs W :=
  { cmdReady := !r.busy, rspValid := r.DONE, rspData := r.ACC }

/-- The next value of `DONE` at a micro-step: 1 when it is the last one (R75). -/
def lastMicroStep {W : Nat} (r : Regs W) : Bool := r.CNT == 1

/-- The response a host sees in the present cycle, as a number, if there is one (R25, R84). It is read off
`DONE` alone, also before the first reset edge, where R72 leaves `DONE` unspecified: DESIGN CHOICE (log 17). -/
def Regs.response {W : Nat} (r : Regs W) : List Nat := if r.DONE then [r.ACC.toNat] else []

end Sys2Proof.Machine
end

