-- ==== Sys2Proof/Syntax.lean ====
section
/-! DEFINITION. The five commands of spec/opcode_table.json (30_encoding.md R33). -/

namespace Sys2Proof

/-- A command, with the operand it uses (R34). `INIT`, `BIT` and `BYTE` use none: their `arg` field is
ignored (R35), so it is no part of the command. -/
inductive Instr where
  /-- `INIT`: construct with the default seed (R40). -/
  | init
  /-- `SEED seed`: construct with the host's seed (R41). -/
  | seed (seed : Word)
  /-- `BIT`: extract one bit (R51). -/
  | bit
  /-- `BITS n`: extract `n` bits (R52). -/
  | bits (n : Word)
  /-- `BYTE`: extract one 8-bit byte (R53). -/
  | byte
  deriving DecidableEq, Repr

/-- Whether a command is one of the three extraction commands (R39: two construction commands and three
extraction commands). -/
def Instr.isExtraction : Instr → Bool
  | .init => false
  | .seed _ => false
  | .bit => true
  | .bits _ => true
  | .byte => true

end Sys2Proof
end

