-- ==== Sys2Proof/WellFormed.lean ====
section
/-! DEFINITION. Which commands a conforming host may present to an instance of width `W`: the operand
preconditions of 40_construction.md R41 and 42_extraction.md R54. Every command can be encoded; the
hardware checks neither condition (60_exceptions.md R62). -/

namespace Sys2Proof

/-- The precondition of `SEED`: `seed != 0` (R41). -/
def seedOk (seed : Word) : Bool := seed != 0

/-- The precondition of `BITS`: `n <= W` (R54). -/
def countOk (W : Nat) (n : Word) : Bool := decide (n.toNat ≤ W)

/-- A command that meets its precondition, if it has one. -/
def Instr.wellFormed (W : Nat) : Instr → Bool
  | .init => true
  | .seed s => seedOk s
  | .bit => true
  | .bits n => countOk W n
  | .byte => true

end Sys2Proof
end

