-- ==== Sys2Proof/Machine/Operands.lean ====
section
/-! DEFINITION. The two operands (30_encoding.md R34) as the machine uses them. There is no register
operand and no addressing mode. -/

namespace Sys2Proof.Machine

/-- The operand of `SEED`, or the refusal of a zero seed (R41). Nothing is extended, scaled or shifted. -/
def seedOperand (seed : Word) : Except Refusal Word :=
  if seedOk seed then .ok seed else .error .zeroSeed

/-- The operand of `BITS` as a number of bits, or the refusal of a count above `W` (R54). -/
def countOperand (W : Nat) (n : Word) : Except Refusal Nat :=
  if countOk W n then .ok n.toNat else .error .countExceedsWidth

/-- `arg[CNTW-1:0]`, what the edge that accepts `BITS` loads into `CNT` (R75). -/
def countField (W : Nat) (n : Word) : BitVec (cntw W) := n.setWidth (cntw W)

end Sys2Proof.Machine
end

