-- ==== Sys2Proof/Machine/Construction.lean ====
section
/-! DEFINITION. The construction commands `INIT` and `SEED` (40_construction.md): the whole effect of
one accepted command, and what the edge that accepts it does (70_reset_and_hazards.md R75). -/

namespace Sys2Proof.Machine

/-- `INIT` (R40): `S <- 1`, `ACC <- 0`, `CNT <- 0`, result 0. -/
def execInit (s : State) : Host.Outcome State Fault Refusal :=
  .next (s.setRegs (completed DEFAULT_SEED 0))

/-- `SEED seed` (R41): `S <- seed`, `ACC <- 0`, `CNT <- 0`, result 0; a zero seed is refused. -/
def execSeed (seed : Word) (s : State) : Host.Outcome State Fault Refusal :=
  match seedOperand seed with
  | .ok x => .next (s.setRegs (completed x 0))
  | .error r => .refused r

/-- The edge that accepts `INIT` (R75). -/
def acceptInit {W : Nat} : Except Refusal (Controls W) :=
  .ok { sSel := .default, aSel := .clear, cnt := 0, done := true }

/-- The edge that accepts `SEED` (R75). -/
def acceptSeed {W : Nat} (seed : Word) : Except Refusal (Controls W) :=
  match seedOperand seed with
  | .ok _ => .ok { sSel := .seed, aSel := .clear, cnt := 0, done := true }
  | .error r => .error r

end Sys2Proof.Machine
end

