-- ==== Sys2Proof/Machine/Extraction.lean ====
section
/-! DEFINITION. The extraction commands `BIT`, `BITS` and `BYTE` (42_extraction.md): the whole effect of
one accepted command, and what the edge that accepts it does (70_reset_and_hazards.md R75). -/

namespace Sys2Proof.Machine

/-- `BIT` (R51): one `nextbit()`, its bit the result. -/
def execBit (s : State) : Host.Outcome State Fault Refusal :=
  .next (s.setRegs (completed (nextbit s.regs.S).1 (zextBit s.width.W (nextbit s.regs.S).2)))

/-- `BITS n` (R52): `n` bits, the first one highest; a count above `W` is refused. -/
def execBits (n : Word) (s : State) : Host.Outcome State Fault Refusal :=
  match countOperand s.width.W n with
  | .ok k => .next (s.setRegs (extraction k s.regs))
  | .error r => .refused r

/-- `BYTE` (R53): 8 bits, the first one highest. -/
def execByte (s : State) : Host.Outcome State Fault Refusal :=
  .next (s.setRegs (extraction BYTE_N s.regs))

/-- The edge that accepts `BIT` (R75): no transition yet. -/
def acceptBit {W : Nat} : Except Refusal (Controls W) :=
  .ok { sSel := .hold, aSel := .clear, cnt := 1, done := false }

/-- The edge that accepts `BITS n` (R75): no transition yet; with `n = 0` the command completes here. -/
def acceptBits {W : Nat} (n : Word) : Except Refusal (Controls W) :=
  match countOperand W n with
  | .ok k => .ok { sSel := .hold, aSel := .clear, cnt := countField W n, done := k == 0 }
  | .error r => .error r

/-- The edge that accepts `BYTE` (R75): no transition yet. -/
def acceptByte {W : Nat} : Except Refusal (Controls W) :=
  .ok { sSel := .hold, aSel := .clear, cnt := BitVec.ofNat _ BYTE_N, done := false }

end Sys2Proof.Machine
end

