-- ==== Sys2Proof/Machine/Dispatch.lean ====
section
/-! DEFINITION. The effect of one accepted command, an arm a command (20_memory.md R29). -/

namespace Sys2Proof.Machine

def exec (i : Instr) (s : State) : Host.Outcome State Fault Refusal :=
  match i with
  | .init => Sys2Proof.Machine.execInit s
  | .seed x => Sys2Proof.Machine.execSeed x s
  | .bit => Sys2Proof.Machine.execBit s
  | .bits n => Sys2Proof.Machine.execBits n s
  | .byte => Sys2Proof.Machine.execByte s

end Sys2Proof.Machine
end

