-- ==== Sys2Proof/Decode.lean ====
section
/-! DEFINITION. Decoding of the 40-bit command word (30_encoding.md R32 to R36), then the encoder (R33, R37). -/

namespace Sys2Proof

/-- Why a command word is no command. -/
inductive DecodeError where
  /-- Opcodes `0x05` to `0xFF` (R36). -/
  | reservedOpcode (op : Opcode)
  deriving DecidableEq, Repr

/-- `op = CW[39:32]` (R32). -/
def opField (w : CmdWord) : Opcode := w.extractLsb' 32 8

/-- `arg = CW[31:0]` (R32). -/
def argField (w : CmdWord) : Word := w.extractLsb' 0 32

/-- The command a word stands for: the opcode map of R33, the operands of R34. The `arg` of `INIT`,
`BIT` and `BYTE` is not looked at (R35). -/
def decode (w : CmdWord) : Except DecodeError Instr :=
  match (opField w).toNat with
  | 0x00 => .ok .init
  | 0x01 => .ok (.seed (argField w))
  | 0x02 => .ok .bit
  | 0x03 => .ok (.bits (argField w))
  | 0x04 => .ok .byte
  | _ => .error (.reservedOpcode (opField w))

/-- The opcode of a command (R33). -/
def Instr.opcode : Instr → Opcode
  | .init => 0x00
  | .seed _ => 0x01
  | .bit => 0x02
  | .bits _ => 0x03
  | .byte => 0x04

/-- The operand field of a command: its operand (R34), or 0 where the field is ignored, as R35 says a
host should write. -/
def Instr.operand : Instr → Word
  | .init => 0
  | .seed s => s
  | .bit => 0
  | .bits n => n
  | .byte => 0

/-- The command word of a command (R32, R37). -/
def encode (i : Instr) : CmdWord := i.opcode ++ i.operand

/-- One row of spec/opcode_table.json. -/
structure OpcodeRow where
  mnemonic : String
  pattern  : CmdWord
  mask     : CmdWord
  deriving DecidableEq, Repr

/-- The match and mask values of R33, in the table's order. -/
def opcodeRows : List OpcodeRow :=
  [⟨"INIT", 0x0000000000, 0xFF00000000⟩, ⟨"SEED", 0x0100000000, 0xFF00000000⟩,
   ⟨"BIT", 0x0200000000, 0xFF00000000⟩, ⟨"BITS", 0x0300000000, 0xFF00000000⟩,
   ⟨"BYTE", 0x0400000000, 0xFF00000000⟩]

/-- Whether a word matches a row (R33: match and mask over the 40-bit word). -/
def OpcodeRow.covers (r : OpcodeRow) (w : CmdWord) : Bool := w &&& r.mask == r.pattern

/-- The mnemonic of a command (R33). -/
def Instr.mnemonic : Instr → String
  | .init => "INIT"
  | .seed _ => "SEED"
  | .bit => "BIT"
  | .bits _ => "BITS"
  | .byte => "BYTE"

/-- The command word whose bits are the low `nbits` bits of `w`, all higher bits 0. -/
def tableWord (nbits w : Nat) : CmdWord := BitVec.ofNat 40 (w % 2 ^ nbits)

/-- The decoder on a word numbered as spec/opcode_table.json numbers it: the table's 40-bit number is
the command word itself. -/
def decodeTableWord (nbits w : Nat) : Option Instr :=
  (decode (tableWord nbits w)).toOption

/-- A line of a command sequence in the text form of R37. -/
inductive AsmLine where
  | cmd (i : Instr)
  /-- The pseudo-command `DEFAULT`. -/
  | default
  /-- One clock edge with `rst = 1`; not a command, no command word. -/
  | reset
  deriving DecidableEq, Repr

/-- The command word of a line, if it has one: `DEFAULT` is `INIT`, `RESET` has none (R37). -/
def AsmLine.word? : AsmLine → Option CmdWord
  | .cmd i => some (encode i)
  | .default => some (encode .init)
  | .reset => none

/-- The text of a line: the mnemonic in capitals, then the operand, here in decimal (R37). -/
def AsmLine.text : AsmLine → String
  | .cmd .init => "INIT"
  | .cmd (.seed s) => "SEED " ++ toString s.toNat
  | .cmd .bit => "BIT"
  | .cmd (.bits n) => "BITS " ++ toString n.toNat
  | .cmd .byte => "BYTE"
  | .default => "DEFAULT"
  | .reset => "RESET"

end Sys2Proof
end

