-- ==== Sys2Proof/Machine/Clock.lean ====
section
/-! DEFINITION. The clocked next-state function (70_reset_and_hazards.md R75), with reset (R70, R71),
precedence at an edge (60_exceptions.md R63) and the edges before the first reset (R72). -/

namespace Sys2Proof.Machine

/-- What the edge that accepts a command does, or why the command has no meaning (R75, `case op of`). -/
def accept {W : Nat} (i : Instr) : Except Refusal (Controls W) :=
  match i with
  | .init => acceptInit
  | .seed x => acceptSeed x
  | .bit => acceptBit
  | .bits n => acceptBits n
  | .byte => acceptByte

/-- The command an accepted command word stands for; a reserved opcode is refused (R36). -/
def commandOf (w : CmdWord) : Except Refusal Instr :=
  match decode w with
  | .ok i => .ok i
  | .error (.reservedOpcode _) => .error .reservedOpcode

/-- What the edge that accepts the command word `w` does (R24, R75). -/
def acceptWord {W : Nat} (w : CmdWord) : Except Refusal (Controls W) :=
  match commandOf w with
  | .ok i => accept i
  | .error r => .error r

/-- An edge with `rst = 1` (R70, R75). -/
def resetControls {W : Nat} : Controls W :=
  { sSel := .default, aSel := .clear, cnt := 0, done := false }

/-- An edge at which the command in flight extracts one bit (R75). -/
def microStepControls {W : Nat} (r : Regs W) : Controls W :=
  { sSel := .step, aSel := .shift, cnt := r.CNT - 1, done := lastMicroStep r }

/-- An edge with nothing in flight and nothing presented (R75, R69). -/
def idleControls {W : Nat} : Controls W :=
  { sSel := .hold, aSel := .hold, cnt := 0, done := false }

/-- The four cases of R75, in their order of precedence (R63). -/
def edgeControls {W : Nat} (p : Pins) (r : Regs W) : Except Refusal (Controls W) :=
  if p.rst then .ok resetControls
  else if r.busy then .ok (microStepControls r)
  else if p.cmdValid then acceptWord p.cmdWord
  else .ok idleControls

/-- The registers after one rising edge (R75). -/
def Regs.edge {W : Nat} (p : Pins) (r : Regs W) : Except Refusal (Regs W) :=
  match edgeControls p r with
  | .ok c => .ok (latch c (argField p.cmdWord) r)
  | .error e => .error e

/-- One rising edge of `clk` (R74, R75). Before the first reset edge only an edge with `rst = 1` has a
meaning (R72). -/
def clockEdge (p : Pins) (s : State) : Host.Outcome State Fault Refusal :=
  if s.live || p.rst then
    match s.regs.edge p with
    | .ok r => .next { s with regs := r, live := true }
    | .error e => .refused e
  else .refused .beforeReset

end Sys2Proof.Machine
end

