-- ==== Sys2Proof/Machine/Fetch.lean ====
section
/-! DEFINITION. Which move comes next: the host's next input, and the command it hands over. The block
fetches nothing itself (10_state.md R16); its commands arrive from the host one at a time. -/

namespace Sys2Proof.Machine

/-- The pins of a host that presents nothing. -/
def Pins.idle : Pins := { rst := false, cmdValid := false, cmdWord := 0 }

/-- The pins of a host that presents the command word `w`. -/
def Pins.present (w : CmdWord) : Pins := { rst := false, cmdValid := true, cmdWord := w }

/-- The pins of a reset edge, with nothing presented. -/
def Pins.reset : Pins := { rst := true, cmdValid := false, cmdWord := 0 }

/-- One move of the machine, with the state it starts from (the input it uses up taken off the list). -/
inductive Move where
  /-- One rising edge with these pins. -/
  | edge (p : Pins) (s : State)
  /-- One accepted command, run to completion. -/
  | run (i : Instr) (s : State)
  /-- The state after power-up. -/
  | powered (s : State)
  /-- No meaning. -/
  | refuse (r : Refusal)

/-- The move of a host that hands over the command word `w`, from a state `s` in which that input stands
before `rest`. Before reset it has no meaning (R72). While a command is in flight the block makes a
micro-step and the host holds the word, so the input stays (R24, R77; log 5). Else the word is accepted
and decoded. -/
def handOver (w : CmdWord) (rest : List HostInput) (s : State) : Move :=
  if s.live then
    if s.regs.busy then .edge (.present w) s
    else
      match commandOf w with
      | .ok i => .run i (s.setInputs rest)
      | .error r => .refuse r
  else .refuse .beforeReset

/-- The next move: the first input of the list, or an edge at which the host presents nothing (log 3). -/
def nextMove (s : State) : Move :=
  match s.inputs with
  | [] => .edge .idle s
  | .edge p :: rest => .edge p (s.setInputs rest)
  | .command w :: rest => handOver w rest s
  | .powerUp S acc cnt done :: rest => .powered ((s.setInputs rest).powerUp S acc cnt done)

/-- The host's move for a line of a command sequence: a command to hand over, or one reset edge (R37). -/
def hostInputOf (l : AsmLine) : HostInput :=
  match l.word? with
  | some w => .command w
  | none => .edge .reset

/-- The machine with a host that hands over the command word `w` next, and with what acceptance at the
next step needs: nothing in flight (R24) and a reset edge behind it (R72). -/
def State.offerNext (s : State) (w : CmdWord) : State :=
  { s with regs := { s.regs with CNT := 0 }, live := true, inputs := .command w :: s.inputs }

end Sys2Proof.Machine
end

