-- ==== Sys2Proof/Machine/Step.lean ====
section
/-! DEFINITION. One step of the machine: its next move, and where a command word stands to run next. -/

namespace Sys2Proof.Machine

/-- One step: one rising edge (R75), one whole command (R29), or power-up (R72). -/
def step (s : State) : Host.Outcome State Fault Refusal :=
  match nextMove s with
  | .edge p t => clockEdge p t
  | .run i t => exec i t
  | .powered t => .next t
  | .refuse r => .refused r

/-- The machine whose next step runs the command word given by the low `nbits` bits of `w` (log 8). -/
def State.withFetchWord (s : State) (nbits w : Nat) : State := s.offerNext (tableWord nbits w)

end Sys2Proof.Machine
end

