-- ==== Sys2Proof/Machine/Runs.lean ====
section
/-! DEFINITION. Runs and what is observed of them (70_reset_and_hazards.md R84): at the command level a
list of commands, at the cycle level the pins at each edge, and the list of responses. -/

namespace Sys2Proof.Machine

/-- A state together with the responses shown on the way to it. -/
abbrev Observed := State × List Nat

/-- Goes on from an outcome, putting the response of its state before those that follow. -/
def Observed.andThen (o : Host.Outcome State Fault Refusal)
    (k : State → Host.Outcome Observed Fault Refusal) : Host.Outcome Observed Fault Refusal :=
  match o with
  | .next t =>
    match k t with
    | .next (u, rs) => .next (u, t.regs.response ++ rs)
    | .fault f => .fault f
    | .refused r => .refused r
  | .fault f => .fault f
  | .refused r => .refused r

/-- A run at the command level: the commands one after the other, each whole (R29, R84). -/
def runCommands : List Instr → State → Host.Outcome Observed Fault Refusal
  | [], s => .next (s, [])
  | i :: is, s => Observed.andThen (exec i s) (runCommands is)

/-- A run at the cycle level: the pins at each rising edge (R84). -/
def runEdges : List Pins → State → Host.Outcome Observed Fault Refusal
  | [], s => .next (s, [])
  | p :: ps, s => Observed.andThen (clockEdge p s) (runEdges ps)

/-- A run of `n` steps of the machine. DESIGN CHOICE (log 17): where a step is a power-up whose move names
`DONE = 1`, the state after it counts as showing a response, as every state with `DONE = 1` does, although
no command completed; R72 leaves `rsp_valid` unspecified there, and R84 has no power-up inside a run. -/
def runSteps : Nat → State → Host.Outcome Observed Fault Refusal
  | 0, s => .next (s, [])
  | n + 1, s => Observed.andThen (step s) (runSteps n)

/-- The command accepted at an edge, if there is one: `rst = 0`, `cmd_valid = 1`, `cmd_ready = 1`, and
the word is a command (R24). -/
def acceptedAt (p : Pins) (s : State) : List Instr :=
  if !p.rst && p.cmdValid && !s.regs.busy then (commandOf p.cmdWord).toOption.toList else []

/-- The commands accepted in a run at the cycle level, in order (R24, R29). -/
def acceptedIn : List Pins → State → List Instr
  | [], _ => []
  | p :: ps, s =>
    acceptedAt p s ++
      match clockEdge p s with
      | .next t => acceptedIn ps t
      | .fault _ => []
      | .refused _ => []

/-- The number of bits a command extracts, `m` of R76 and R83. -/
def bitCount (i : Instr) : Nat :=
  match i with
  | .init => 0
  | .seed _ => 0
  | .bit => 1
  | .bits n => n.toNat
  | .byte => BYTE_N

/-- The bits of an `n`-bit result in the order they were extracted: the highest first (R26, R52). -/
def bitsOfResult (n v : Nat) : List Bool := (List.range n).map (fun k => v.testBit (n - 1 - k))

/-- The first `n` bits of the stream of state `x`: the `k`-th bit after it is bit 0 of its `k`-th
successor (R49, R56). -/
def bitStream (n : Nat) (x : Word) : List Bool :=
  (List.range n).map (fun k => outBit (step32^[k + 1] x))

/-- The number whose `n` bits, highest first, are the first `n` bits of the stream of state `x`: the
closed form of R52, the sum over `k = 1..n` of `s_k[0] * 2^(n-k)`. -/
def streamNumber (n : Nat) (x : Word) : Nat :=
  ∑ k ∈ Finset.range n, (outBit (step32^[k + 1] x)).toNat * 2 ^ (n - 1 - k)

end Sys2Proof.Machine
end

