-- ==== Sys2Proof/Safety.lean ====
section
/-! DEFINITION. What counts as a safe run: the invariant of the registers, the launch states of
70_reset_and_hazards.md R84, and a host that keeps the duties of R85. -/

namespace Sys2Proof.Machine

/-- The registers of a block that has been reset: `S` is not zero (R11), `CNT` is in `0..W` (R13), a
response is shown only when nothing is in flight (R14, R75), and the bits in `ACC` leave room for those
still owed, so that no extracted bit is dropped (R52, R55). -/
abbrev Regs.Sound {W : Nat} (r : Regs W) : Prop :=
  r.S ≠ 0 ∧ r.CNT.toNat ≤ W ∧ (r.DONE = true → r.CNT = 0) ∧ r.ACC.toNat * 2 ^ r.CNT.toNat < 2 ^ W

/-- The invariant: from the first reset edge on the registers are sound; before it they hold anything
(R72). -/
abbrev State.Inv (s : State) : Prop := s.live = true → s.regs.Sound

/-- A launch state given outright (R72, R84): nothing in flight, no response showing, `S != 0`. -/
abbrev State.Launch (s : State) : Prop :=
  s.live = true ∧ s.regs.CNT = 0 ∧ s.regs.DONE = false ∧ s.regs.S ≠ 0

/-- A command word a conforming host may present to an instance of width `W`: not a reserved opcode, and
its operand meets the command's precondition (R85). -/
def admittedWord (W : Nat) (w : CmdWord) : Bool :=
  match decode w with
  | .ok i => i.wellFormed W
  | .error _ => false

/-- A host that keeps its duties (R85): after power-up a reset edge comes before anything else, and no
word is presented that it must never present. `live` says whether a reset edge has happened.
DESIGN CHOICE (log 18): at an edge with `rst = 1` any word may stand, because R70 and R73 allow anything
there, although R79, R80 and R85 say never of the words themselves; at every other edge with
`cmd_valid = 1` the word must be admitted, also while the block is busy and does not look at it. -/
def conforming (W : Nat) : Bool → List HostInput → Bool
  | live, [] => live
  | live, .edge p :: rest =>
    if p.rst then conforming W true rest
    else live && (!p.cmdValid || admittedWord W p.cmdWord) && conforming W live rest
  | live, .command w :: rest => live && admittedWord W w && conforming W live rest
  | _, .powerUp _ _ _ _ :: rest => conforming W false rest

/-- A machine on a safe run: its registers are sound and its host conforms. -/
abbrev State.Safe (s : State) : Prop :=
  s.Inv ∧ conforming s.width.W s.live s.inputs = true

end Sys2Proof.Machine
end

