-- ==== Sys2Proof/Certificates/Slice0/Obligations.lean ====
section
/-! DEFINITION. The statements for the provers. Each docstring names the rules of spec/ it formalises. -/

open Sys2Proof Sys2Proof.Machine

/-! ### The command word -/

/-- R32, R33, R34: a command's word decodes to that command, with every operand. -/
def Obligations.DecodeEncodeRoundTrip : Prop :=
  ∀ i : Instr, decode (encode i) = .ok i

/-- R32, R33, R34, R36: what a word decodes to, read off its two fields, for every word; and the fields
are the quotient and the remainder by `2^32`. -/
def Obligations.DecodingReadsOpcodeAndOperand : Prop :=
  ∀ w : CmdWord,
    (opField w).toNat = w.toNat / 2 ^ 32 ∧ (argField w).toNat = w.toNat % 2 ^ 32 ∧
    (decode w = .ok .init ↔ w.toNat / 2 ^ 32 = 0) ∧
    (∀ x : Word, decode w = .ok (.seed x) ↔ w.toNat / 2 ^ 32 = 1 ∧ x.toNat = w.toNat % 2 ^ 32) ∧
    (decode w = .ok .bit ↔ w.toNat / 2 ^ 32 = 2) ∧
    (∀ n : Word, decode w = .ok (.bits n) ↔ w.toNat / 2 ^ 32 = 3 ∧ n.toNat = w.toNat % 2 ^ 32) ∧
    (decode w = .ok .byte ↔ w.toNat / 2 ^ 32 = 4) ∧
    (∀ op : Opcode, decode w = .error (.reservedOpcode op) ↔
      op.toNat = w.toNat / 2 ^ 32 ∧ 5 ≤ w.toNat / 2 ^ 32)

/-- R33, last sentence: the five match and mask pairs select exactly the words the decoder gives their
command. -/
def Obligations.OpcodeRowsSelectTheirCommands : Prop :=
  ∀ w : CmdWord, ∀ row ∈ opcodeRows,
    (row.covers w = true ↔ ∃ i, decode w = .ok i ∧ i.mnemonic = row.mnemonic)

/-- R33, R37: words written out from the encoding. -/
def Obligations.WrittenOutWordsDecode : Prop :=
  decode 0x0000000000 = .ok .init ∧ decode 0x00FFFFFFFF = .ok .init ∧
  decode 0x01DEADBEEF = .ok (.seed 0xDEADBEEF) ∧ decode 0x0200000000 = .ok .bit ∧
  decode 0x030000000A = .ok (.bits 10) ∧ decode 0x0412345678 = .ok .byte ∧
  decode 0x0500000000 = .error (.reservedOpcode 0x05) ∧
  decode 0x8000000000 = .error (.reservedOpcode 0x80)

/-- R35: with the opcode of `INIT`, `BIT` or `BYTE`, any two operand fields select the same command with
the same effect, at every edge of every state and when the command is handed over whole; the encoder
writes 0 there. The handing over whole is the model's form of the host's moves (log 3, DESIGN CHOICE;
log 4, DEDUCED). -/
def Obligations.UnusedOperandFieldIsIgnored : Prop :=
  ∀ (op : Opcode) (i : Instr), (op, i) ∈ [((0x00 : Opcode), Instr.init), (0x02, .bit), (0x04, .byte)] →
    argField (encode i) = 0 ∧
    ∀ a b : Word,
      decode (op ++ a) = .ok i ∧ decode (op ++ b) = .ok i ∧
      (∀ (s : State) (rst valid : Bool),
        clockEdge ⟨rst, valid, op ++ a⟩ s = clockEdge ⟨rst, valid, op ++ b⟩ s) ∧
      (∀ (s : State) (rest : List HostInput), s.live = true → s.regs.CNT = 0 →
        step (s.setInputs (.command (op ++ a) :: rest)) = step (s.setInputs (.command (op ++ b) :: rest)))

/-- R37: the command word of every line of a command sequence, and the pseudo-command `DEFAULT` and the
line `RESET` as the host's moves, whose form is the model's choice (logs 3, 4). -/
def Obligations.TextLinesGiveTheirWords : Prop :=
  (AsmLine.cmd .init).word? = some 0x0000000000 ∧
  (∀ x : Word, ∃ w, (AsmLine.cmd (.seed x)).word? = some w ∧ w.toNat = 0x0100000000 + x.toNat) ∧
  (AsmLine.cmd .bit).word? = some 0x0200000000 ∧
  (∀ n : Word, ∃ w, (AsmLine.cmd (.bits n)).word? = some w ∧ w.toNat = 0x0300000000 + n.toNat) ∧
  (AsmLine.cmd .byte).word? = some 0x0400000000 ∧
  AsmLine.default.word? = (AsmLine.cmd .init).word? ∧ AsmLine.reset.word? = none ∧
  hostInputOf .default = .command 0x0000000000 ∧
  ∃ p : Pins, p.rst = true ∧ hostInputOf .reset = .edge p

/-! ### The state transition -/

/-- R45: the transition line by line, its corner cases and its worked example. -/
def Obligations.TransitionIsThreeSequentialXors : Prop :=
  (∀ x : Word, ∃ t1 t2 : Word,
    t1 = x ^^^ (x <<< 13) ∧ t2 = t1 ^^^ (t1 >>> 17) ∧ step32 x = t2 ^^^ (t2 <<< 5)) ∧
  step32 0 = 0 ∧ step32 0x00000001 = 0x00042021 ∧ step32 0x80000000 = 0x80084000 ∧
  step32 0xFFFFFFFF = 0x0003E01F ∧ step32 0x00042021 = 0x04080601

/-- R47: the transition is a bijection, maps 0 and only 0 to 0, has the inverse R47 gives, and is linear. -/
def Obligations.TransitionIsLinearBijection : Prop :=
  Function.Bijective step32 ∧ step32 0 = 0 ∧ (∀ x : Word, x ≠ 0 → step32 x ≠ 0) ∧
  (∀ x : Word, unstep32 (step32 x) = x) ∧ (∀ y : Word, step32 (unstep32 y) = y) ∧
  (∀ a b : Word, step32 (a ^^^ b) = step32 a ^^^ step32 b)

/-- R48: `2^32 - 1` transitions return every state to itself. -/
def Obligations.TransitionPeriodReturns : Prop :=
  ∀ x : Word, step32^[2 ^ 32 - 1] x = x

/-- R48: every nonzero state lies on one single cycle of length `2^32 - 1`: no earlier return, and every
nonzero state is reached. -/
def Obligations.NonzeroStatesFormOneCycle : Prop :=
  ∀ x : Word, x ≠ 0 →
    (∀ k : Nat, 0 < k → k < 2 ^ 32 - 1 → step32^[k] x ≠ x) ∧
    (∀ y : Word, y ≠ 0 → ∃ k < 2 ^ 32 - 1, step32^[k] x = y)

/-- R50: `nextbit()` advances once and returns bit 0 of the new state, which is
`S_old[0] ^ S_old[4] ^ S_old[17]`. -/
def Obligations.NextbitReturnsBitOfNewState : Prop :=
  (∀ x : Word,
    (nextbit x).1 = step32 x ∧ (nextbit x).2 = (step32 x).getLsbD 0 ∧
    (nextbit x).2 = ((x.getLsbD 0 ^^ x.getLsbD 4) ^^ x.getLsbD 17)) ∧
  nextbit 0x00000001 = (0x00042021, true) ∧ nextbit 0x00042021 = (0x04080601, true) ∧
  nextbit 0x8EF917D1 = (0x2C6F5BD0, false)

/-! ### The construction commands -/

/-- R40: every word with opcode 0x00 is `INIT`; it completes in every state; its result is 0; twice is
once; it is not accepted while a command is in flight. -/
def Obligations.InitConstructsDefaultSeed : Prop :=
  (∀ a : Word, decode ((0x00 : Opcode) ++ a) = .ok .init) ∧
  (∀ s : State, ∃ t : State,
    t = { s with regs := { S := 0x00000001, ACC := 0, CNT := 0, DONE := true } } ∧
    exec .init s = .next t ∧ t.regs.outputs = { cmdReady := true, rspValid := true, rspData := 0 } ∧
    exec .init t = .next t) ∧
  (∀ (s : State) (w : CmdWord), s.live = true → s.regs.CNT ≠ 0 → decode w = .ok .init →
    clockEdge (Pins.present w) s = clockEdge Pins.idle s)

/-- R41: a word with opcode 0x01 is `SEED` of its operand field; it completes in every state with every
nonzero seed, stored as given; its result is 0; `SEED 1` is `INIT`; a zero seed is refused. -/
def Obligations.SeedConstructsGivenSeed : Prop :=
  (∀ a : Word, decode ((0x01 : Opcode) ++ a) = .ok (.seed a)) ∧
  (∀ (s : State) (x : Word), x ≠ 0 → ∃ t : State,
    t = { s with regs := { S := x, ACC := 0, CNT := 0, DONE := true } } ∧
    exec (.seed x) s = .next t ∧
    t.regs.outputs = { cmdReady := true, rspValid := true, rspData := 0 }) ∧
  (∀ s : State, exec (.seed 1) s = exec .init s) ∧
  (∀ s : State, exec (.seed 0) s = .refused .zeroSeed)

/-- R43: for every sequence `P` of extraction commands, `SEED x` and then `P` gives the results and the
final `S` of `P` run from any state with `S = x` and nothing in flight, and stops where it stops; `INIT`
and then `P` is `SEED 1` and then `P`; the first bit after construction is bit 0 of `step32(seed)`. -/
def Obligations.ConstructionChangesInitialStateOnly : Prop :=
  (∀ (P : List Instr) (x : Word) (s t : State), (∀ i ∈ P, i.isExtraction = true) → x ≠ 0 →
    t.width = s.width → t.regs.CNT = 0 → t.regs.S = x →
    (∀ u rs, runCommands P t = .next (u, rs) →
      ∃ v, runCommands (.seed x :: P) s = .next (v, 0 :: rs) ∧ v.regs.S = u.regs.S) ∧
    (∀ r, runCommands P t = .refused r → runCommands (.seed x :: P) s = .refused r)) ∧
  (∀ (P : List Instr) (s : State), (∀ i ∈ P, i.isExtraction = true) →
    runCommands (.init :: P) s = runCommands (.seed 1 :: P) s) ∧
  (∀ (x : Word) (s : State), x ≠ 0 → ∃ v,
    runCommands [.seed x, .bit] s = .next (v, [0, ((step32 x).getLsbD 0).toNat]))

/-! ### The extraction commands -/

/-- R51: every word with opcode 0x02 is `BIT`; it completes in every state: one transition, the result
is the bit as the number 0 or 1; it has the effect of `BITS 1`; and the rule's example. -/
def Obligations.BitExtractsOneBit : Prop :=
  (∀ a : Word, decode ((0x02 : Opcode) ++ a) = .ok .bit) ∧
  ∀ s : State, ∃ t : State,
    t = { s with regs := { S := step32 s.regs.S, ACC := zextBit s.width.W ((step32 s.regs.S).getLsbD 0),
                           CNT := 0, DONE := true } } ∧
    exec .bit s = .next t ∧ t.regs.ACC.toNat = ((step32 s.regs.S).getLsbD 0).toNat ∧
    t.regs.outputs = { cmdReady := true, rspValid := true, rspData := t.regs.ACC } ∧
    exec (.bits 1) s = .next t ∧
    (s.regs.S = 1 → t.regs.S = 0x00042021 ∧ t.regs.ACC.toNat = 1)

/-- R52: a word with opcode 0x03 is `BITS` of its operand field; with `n <= W` it completes in every
state: `n` transitions, and the result is the closed form, the first bit highest; `BITS 0` changes no
`S`, `BITS 1` is `BIT`, `BITS 8` is `BYTE`; a count above `W` is refused; and the rule's examples. -/
def Obligations.BitsExtractsCountFirstBitHighest : Prop :=
  (∀ a : Word, decode ((0x03 : Opcode) ++ a) = .ok (.bits a)) ∧
  (∀ (s : State) (n : Word), n.toNat ≤ s.width.W → ∃ t : State,
    t = { s with regs := { S := step32^[n.toNat] s.regs.S,
                           ACC := BitVec.ofNat s.width.W (streamNumber n.toNat s.regs.S),
                           CNT := 0, DONE := true } } ∧
    exec (.bits n) s = .next t ∧ t.regs.ACC.toNat = streamNumber n.toNat s.regs.S ∧
    t.regs.ACC.toNat < 2 ^ n.toNat ∧
    t.regs.outputs = { cmdReady := true, rspValid := true, rspData := t.regs.ACC }) ∧
  (∀ s : State,
    exec (.bits 0) s = .next { s with regs := { S := s.regs.S, ACC := 0, CNT := 0, DONE := true } } ∧
    exec (.bits 1) s = exec .bit s ∧ exec (.bits 8) s = exec .byte s) ∧
  (∀ (s : State) (n : Word), s.width.W < n.toNat → exec (.bits n) s = .refused .countExceedsWidth) ∧
  (∀ s : State, s.regs.S = 1 → 10 ≤ s.width.W → ∃ t u v : State,
    exec (.bits 8) s = .next t ∧ t.regs.ACC.toNat = 0xF8 ∧ t.regs.S = 0x19F91CB2 ∧
    exec (.bits 10) t = .next u ∧ u.regs.ACC.toNat = 0x2CC ∧ u.regs.S = 0xC613DB08 ∧
    exec (.bits 3) s = .next v ∧ v.regs.ACC.toNat = 7 ∧ v.regs.S = 0x9DCCA8C5)

/-- R53: every word with opcode 0x04 is `BYTE`; it completes in every state: eight transitions, the first
bit of weight 128 and the last of weight 1, the rest of `rsp_data` 0; it has the effect and the result of
`BITS 8`; and the rule's example. -/
def Obligations.ByteExtractsEightBits : Prop :=
  (∀ a : Word, decode ((0x04 : Opcode) ++ a) = .ok .byte) ∧
  ∀ s : State, ∃ t : State,
    t = { s with regs := { S := step32^[8] s.regs.S,
                           ACC := BitVec.ofNat s.width.W (streamNumber 8 s.regs.S),
                           CNT := 0, DONE := true } } ∧
    exec .byte s = .next t ∧ exec (.bits 8) s = .next t ∧
    t.regs.ACC.toNat = streamNumber 8 s.regs.S ∧ t.regs.ACC.toNat < 256 ∧
    t.regs.ACC.getLsbD 7 = outBit (step32 s.regs.S) ∧
    t.regs.ACC.getLsbD 0 = outBit (step32^[8] s.regs.S) ∧
    t.regs.outputs = { cmdReady := true, rspValid := true, rspData := t.regs.ACC } ∧
    (s.regs.S = 1 → t.regs.ACC.toNat = 0xF8 ∧ t.regs.S = 0x19F91CB2)

/-- R55: the result of an extraction of `m` bits is below `2^m`, its bit `m - 1` is the first bit
extracted and its bit 0 the last. -/
def Obligations.ResultHoldsItsBitsInOrder : Prop :=
  ∀ (i : Instr) (s t : State), i.isExtraction = true → exec i s = .next t →
    t.regs.ACC.toNat < 2 ^ bitCount i ∧
    ∀ k < bitCount i, t.regs.ACC.getLsbD (bitCount i - 1 - k) = outBit (step32^[k + 1] s.regs.S)

/-- R57: an extraction applies the transition exactly as often as it returns bits: `BIT` once, `BYTE`
eight times, `BITS n` `n` times, `BITS 0` not at all. -/
def Obligations.ExtractionAdvancesOncePerBit : Prop :=
  ∀ s : State,
    (∃ t, exec .bit s = .next t ∧ t.regs.S = step32 s.regs.S) ∧
    (∃ t, exec .byte s = .next t ∧ t.regs.S = step32^[8] s.regs.S) ∧
    (∀ n : Word, n.toNat ≤ s.width.W → ∃ t, exec (.bits n) s = .next t ∧
      t.regs.S = step32^[n.toNat] s.regs.S) ∧
    (∃ t, exec (.bits 0) s = .next t ∧ t.regs.S = s.regs.S)

/-- R56, splitting: `BITS a` with result `x` and then `BITS b` with result `y` leaves the `S` of
`BITS (a+b)`, whose result is `x * 2^b + y`. -/
def Obligations.SplittingAnExtraction : Prop :=
  ∀ (s : State) (a b c : Word), c.toNat = a.toNat + b.toNat → c.toNat ≤ s.width.W →
    ∃ t u v : State, exec (.bits a) s = .next t ∧ exec (.bits b) t = .next u ∧
      exec (.bits c) s = .next v ∧ v.regs.S = u.regs.S ∧
      v.regs.ACC.toNat = t.regs.ACC.toNat * 2 ^ b.toNat + u.regs.ACC.toNat

/-- R56: `n` times `BIT` leaves the `S` of `BITS n`, whose result is the number with those bits, the
first one highest. -/
def Obligations.SingleBitsMakeUpBits : Prop :=
  ∀ (s : State) (n : Word), n.toNat ≤ s.width.W →
    ∃ (t u : State) (rs : List Nat), runCommands (List.replicate n.toNat .bit) s = .next (t, rs) ∧
      exec (.bits n) s = .next u ∧ t.regs.S = u.regs.S ∧ rs.length = n.toNat ∧
      u.regs.ACC.toNat = Nat.ofDigits 2 rs.reverse

/-- R56, last item, with R58: whatever mixture of extraction commands draws it, the bit stream is the
same: the bits of all results, in order, are the first bits of the stream of the state before. -/
def Obligations.BitStreamDoesNotDependOnTheCut : Prop :=
  ∀ (P : List Instr) (s : State),
    (∀ i ∈ P, i.isExtraction = true ∧ i.wellFormed s.width.W = true) →
    ∃ (t : State) (rs : List Nat), runCommands P s = .next (t, rs) ∧ rs.length = P.length ∧
      t.regs.S = step32^[(P.map bitCount).sum] s.regs.S ∧
      (List.zipWith bitsOfResult (P.map bitCount) rs).flatten =
        bitStream (P.map bitCount).sum s.regs.S

/-! ### Every command -/

/-- R9, R41, R54: a command applied to a state has exactly one of two outcomes: it completes, exactly
when its precondition holds, or it is refused, for the reason its rule names. -/
def Obligations.CommandCompletesOrIsRefused : Prop :=
  ∀ (i : Instr) (s : State),
    ((∃ t, exec i s = .next t) ↔ i.wellFormed s.width.W = true) ∧
    (∀ r : Refusal, exec i s = .refused r ↔
      (i = .seed 0 ∧ r = .zeroSeed) ∨
      (∃ n : Word, i = .bits n ∧ s.width.W < n.toNat ∧ r = .countExceedsWidth))

/-- The frame of every command (R10, R12, R13, R14, R17, R29): the instance's width, the reset mark and
the host's coming moves stay; nothing is in flight after it and its response shows; and what `ACC`,
`CNT` and `DONE` held before it makes no difference. The last clause for `CNT` is about a command taken
as accepted (log 15). -/
def Obligations.CommandChangesRegistersOnly : Prop :=
  (∀ (i : Instr) (s t : State), exec i s = .next t →
    t.width = s.width ∧ t.live = s.live ∧ t.inputs = s.inputs ∧
    t.regs.CNT = 0 ∧ t.regs.DONE = true) ∧
  (∀ (i : Instr) (s : State) (acc : BitVec s.width.W) (cnt : BitVec (cntw s.width.W)) (done : Bool),
    exec i (s.setRegs { S := s.regs.S, ACC := acc, CNT := cnt, DONE := done }) = exec i s)

/-- R11: from a nonzero `S` every edge and every command that answers leaves `S` nonzero; reset and
`INIT` make it nonzero from any value, and `SEED` puts the host's value there, a nonzero one. -/
def Obligations.StateRegisterStaysNonzero : Prop :=
  (∀ (p : Pins) (s t : State), s.regs.S ≠ 0 → clockEdge p s = .next t → t.regs.S ≠ 0) ∧
  (∀ (i : Instr) (s t : State), s.regs.S ≠ 0 → exec i s = .next t → t.regs.S ≠ 0) ∧
  (∀ (p : Pins) (s : State), p.rst = true → ∃ t, clockEdge p s = .next t ∧ t.regs.S = 1) ∧
  (∀ (s : State), ∃ t, exec .init s = .next t ∧ t.regs.S = 1) ∧
  (∀ (x : Word) (s t : State), exec (.seed x) s = .next t → t.regs.S = x ∧ x ≠ 0)

/-! ### Reset and the clock -/

/-- R70: a reset edge in every state, before the first one too, with anything presented; a second one
repeats the same writes; the registers are those after `INIT` but for `DONE`. -/
def Obligations.ResetEdgeWritesResetValues : Prop :=
  ∀ (p q : Pins) (s : State), p.rst = true → q.rst = true → ∃ t : State,
    t = { s with regs := { S := 0x00000001, ACC := 0, CNT := 0, DONE := false }, live := true } ∧
    clockEdge p s = .next t ∧ clockEdge q t = .next t ∧
    t.regs.outputs = { cmdReady := true, rspValid := false, rspData := 0 } ∧
    exec .init s = .next { s with regs := { S := 0x00000001, ACC := 0, CNT := 0, DONE := true } }

/-- R71: a reset edge while a command is in flight abandons it: the reset values, and however many edges
follow with nothing presented, no response. -/
def Obligations.ResetAbandonsCommandInFlight : Prop :=
  ∀ (p : Pins) (ps : List Pins) (s : State), s.live = true → s.regs.CNT ≠ 0 → p.rst = true →
    (∀ q ∈ ps, q.rst = false ∧ q.cmdValid = false) →
    runEdges (p :: ps) s =
      .next ({ s with regs := { S := 0x00000001, ACC := 0, CNT := 0, DONE := false } }, [])

/-- R72, with the model's mark `live` (log 6), its power-up input (log 7) and its form of the host's moves
(log 3): after power-up the
registers hold any values; no edge without reset and no command has a meaning; a reset edge does. -/
def Obligations.NothingBeforeTheFirstResetEdge : Prop :=
  (∀ (s : State) (x : Word) (acc : BitVec s.width.W) (cnt : BitVec (cntw s.width.W)) (done : Bool)
      (rest : List HostInput),
    step (s.setInputs (.powerUp x acc.toNat cnt.toNat done :: rest)) =
      .next { s with regs := { S := x, ACC := acc, CNT := cnt, DONE := done }, live := false,
                     inputs := rest }) ∧
  (∀ (s : State) (p : Pins) (w : CmdWord) (rest : List HostInput), s.live = false →
    (p.rst = false → clockEdge p s = .refused .beforeReset) ∧
    (p.rst = true → clockEdge p s =
      .next { s with regs := { S := 0x00000001, ACC := 0, CNT := 0, DONE := false }, live := true }) ∧
    step (s.setInputs []) = .refused .beforeReset ∧
    step (s.setInputs (.command w :: rest)) = .refused .beforeReset)

/-- R75: the clocked next-state function, case by case, on a block that has been reset. -/
def Obligations.ClockEdgeFollowsItsFourCases : Prop :=
  ∀ (s : State) (p : Pins) (op : Opcode) (arg : Word), s.live = true → p.cmdWord = op ++ arg →
    (p.rst = true → clockEdge p s =
      .next { s with regs := { S := 0x00000001, ACC := 0, CNT := 0, DONE := false } }) ∧
    (p.rst = false → s.regs.CNT ≠ 0 → clockEdge p s =
      .next { s with regs :=
        { S := step32 s.regs.S
          ACC := (s.regs.ACC <<< 1) ||| zextBit s.width.W ((step32 s.regs.S).getLsbD 0)
          CNT := s.regs.CNT - 1
          DONE := decide (s.regs.CNT = 1) } }) ∧
    (p.rst = false → s.regs.CNT = 0 → p.cmdValid = true →
      (op = 0x00 → clockEdge p s =
        .next { s with regs := { S := 0x00000001, ACC := 0, CNT := 0, DONE := true } }) ∧
      (op = 0x01 → clockEdge p s = if arg = 0 then .refused .zeroSeed else
        .next { s with regs := { S := arg, ACC := 0, CNT := 0, DONE := true } }) ∧
      (op = 0x02 → clockEdge p s =
        .next { s with regs := { S := s.regs.S, ACC := 0, CNT := 1, DONE := false } }) ∧
      (op = 0x03 → clockEdge p s = if s.width.W < arg.toNat then .refused .countExceedsWidth else
        .next { s with regs := { S := s.regs.S, ACC := 0, CNT := BitVec.ofNat _ arg.toNat,
                                 DONE := decide (arg = 0) } }) ∧
      (op = 0x04 → clockEdge p s =
        .next { s with regs := { S := s.regs.S, ACC := 0, CNT := BitVec.ofNat _ 8, DONE := false } }) ∧
      (5 ≤ op.toNat → clockEdge p s = .refused .reservedOpcode)) ∧
    (p.rst = false → s.regs.CNT = 0 → p.cmdValid = false → clockEdge p s =
      .next { s with regs := { S := s.regs.S, ACC := s.regs.ACC, CNT := 0, DONE := false } })

/-- R38: the next `S` and the next `ACC` under each select of the two multiplexers. -/
def Obligations.MultiplexersSelectTheirInputs : Prop :=
  ∀ (W : Nat) (S arg : Word) (ACC : BitVec W),
    sMux .hold S arg = S ∧ sMux .default S arg = 0x00000001 ∧ sMux .seed S arg = arg ∧
    sMux .step S arg = step32 S ∧ aMux .hold ACC S = ACC ∧ aMux .clear ACC S = 0 ∧
    aMux .shift ACC S = ((ACC <<< 1) ||| zextBit W ((step32 S).getLsbD 0))

/-- R24, R74: a command is accepted at an edge exactly when `rst = 0`, `cmd_valid = 1` and
`cmd_ready = 1` there and the word is a command; at every other edge the word is not looked at. -/
def Obligations.WordLookedAtOnlyWhenAccepted : Prop :=
  (∀ (p : Pins) (s : State) (i : Instr), acceptedAt p s = [i] ↔
    p.rst = false ∧ p.cmdValid = true ∧ s.regs.outputs.cmdReady = true ∧ decode p.cmdWord = .ok i) ∧
  (∀ (s : State) (rst valid : Bool) (w w' : CmdWord),
    ¬ (rst = false ∧ valid = true ∧ s.regs.CNT = 0) →
    clockEdge ⟨rst, valid, w⟩ s = clockEdge ⟨rst, valid, w'⟩ s)

/-- R6, R13, R75 (notes): a count up to `W` fits in `CNT`, and `CNTW` is the smallest width with that
property. -/
def Obligations.CounterHoldsEveryLegalCount : Prop :=
  ∀ w : Width,
    (∀ k : Nat, w.W < 2 ^ k ↔ cntw w.W ≤ k) ∧
    (∀ n : Word, n.toNat ≤ w.W → (countField w.W n).toNat = n.toNat) ∧
    (BitVec.ofNat (cntw w.W) 8).toNat = 8 ∧ (1 : BitVec (cntw w.W)).toNat = 1

/-- R14: after an edge `DONE`, which drives `rsp_valid`, is 1 exactly when a command completed at it: the
last micro-step, or the acceptance of `INIT`, of `SEED`, of `BITS 0` (R75, note on completion). -/
def Obligations.DoneMarksTheCompletingEdge : Prop :=
  ∀ (p : Pins) (s t : State), clockEdge p s = .next t →
    t.regs.outputs.rspValid = t.regs.DONE ∧
    (t.regs.DONE = true ↔ p.rst = false ∧
      (s.regs.CNT = 1 ∨
        (s.regs.CNT = 0 ∧ p.cmdValid = true ∧
          (decode p.cmdWord = .ok .init ∨ (∃ x, decode p.cmdWord = .ok (.seed x)) ∨
            decode p.cmdWord = .ok (.bits 0)))))

/-- From R77: a command presented while one is in flight is not looked at; held until the block is ready,
it is the one that takes effect, and no earlier. The second clause says so of the model's own form of the
host's moves: the list of moves (log 3, DESIGN CHOICE), a command handed over as one step (log 4, DEDUCED)
and kept first in the list while the block is busy (log 5, DEDUCED). -/
def Obligations.CommandHeldWhileBusyRunsWhenReady : Prop :=
  (∀ (s : State) (rst v v' : Bool) (w w' : CmdWord), s.live = true → s.regs.CNT ≠ 0 →
    clockEdge ⟨rst, v, w⟩ s = clockEdge ⟨rst, v', w'⟩ s) ∧
  (∀ (s : State) (w : CmdWord) (rest : List HostInput) (i : Instr), s.live = true →
    s.inputs = .command w :: rest → decode w = .ok i →
    ∃ t : State, Host.Core.run core s.regs.CNT.toNat s = .next t ∧ t.width = s.width ∧
      t.regs.CNT = 0 ∧ t.regs.S = step32^[s.regs.CNT.toNat] s.regs.S ∧
      t.inputs = .command w :: rest ∧ step t = exec i (t.setInputs rest))

/-- R69, R75: a block with nothing in flight and nothing presented holds `S`, `ACC` and `CNT` for any
number of edges, and shows no response. -/
def Obligations.IdleBlockHoldsItsState : Prop :=
  ∀ (ps : List Pins) (s : State), s.live = true → s.regs.CNT = 0 →
    (∀ p ∈ ps, p.rst = false ∧ p.cmdValid = false) →
    runEdges ps s = .next
      ({ s with regs := { s.regs with DONE := s.regs.DONE && ps.isEmpty } }, [])

/-! ### The two levels -/

/-- R76, R83, R25: a command of `m` bits accepted from a block with nothing in flight, whatever is
presented at the next `m` edges: after `e_m` the machine is exactly what the command-level rule gives,
its result is the one response, and after each earlier edge `e_j` the block is not ready, owes `m - j`
bits and has shown none. -/
def Obligations.ClockedCommandAgreesWithCommandLevel : Prop :=
  ∀ (s : State) (w : CmdWord) (i : Instr) (ps : List Pins), s.live = true → s.regs.CNT = 0 →
    decode w = .ok i → i.wellFormed s.width.W = true → ps.length = bitCount i →
    (∀ p ∈ ps, p.rst = false) →
    (∃ u : State, exec i s = .next u ∧
      runEdges (Pins.present w :: ps) s = .next (u, [u.regs.ACC.toNat])) ∧
    (∀ j < bitCount i, ∃ v : State,
      runEdges (Pins.present w :: ps.take j) s = .next (v, []) ∧
      v.regs.CNT.toNat = bitCount i - j ∧ v.regs.outputs.cmdReady = false)

/-- R76 (last sentence), R29, R58, R24: any run at the cycle level without reset that begins and ends
with nothing in flight has the responses and the final `S` and `ACC` of its accepted commands run one
after the other, whatever gaps the host leaves and whatever it presents while the block is busy. -/
def Obligations.ResponsesAreThoseOfAcceptedCommands : Prop :=
  ∀ (ps : List Pins) (s t : State) (rs : List Nat), s.live = true → s.regs.CNT = 0 →
    (∀ p ∈ ps, p.rst = false) → runEdges ps s = .next (t, rs) → t.regs.CNT = 0 →
    ∃ u : State, runCommands (acceptedIn ps s) s = .next (u, rs) ∧
      rs.length = (acceptedIn ps s).length ∧
      u.regs.S = t.regs.S ∧ u.regs.ACC.toNat = t.regs.ACC.toNat

/-- R84: a command in flight completes after as many edges as it owes bits, at most `W`, whatever is
presented meanwhile; its one response is what it had, shifted up, with the owed bits below; with nothing
presented after it the run has ended one edge later. -/
def Obligations.CommandInFlightEnds : Prop :=
  ∀ (s : State) (ps : List Pins), s.live = true → s.Inv → s.regs.CNT ≠ 0 →
    ps.length = s.regs.CNT.toNat → (∀ p ∈ ps, p.rst = false) →
    ps.length ≤ s.width.W ∧
    ∃ t u : State, runEdges ps s = .next (t, [t.regs.ACC.toNat]) ∧
      t.regs.S = step32^[ps.length] s.regs.S ∧
      t.regs.ACC.toNat = s.regs.ACC.toNat * 2 ^ ps.length + streamNumber ps.length s.regs.S ∧
      t.regs.CNT = 0 ∧ t.regs.DONE = true ∧
      clockEdge Pins.idle t = .next u ∧ u.regs.CNT = 0 ∧ u.regs.DONE = false

/-- R18, R83, R84: what a host sees besides the data does not depend on `S` or `ACC`: from two states
that differ in them only, the same pins give the same readiness, the same number of responses, and the
same stop if they stop. -/
def Obligations.TimingDoesNotRevealTheState : Prop :=
  ∀ (ps : List Pins) (s : State) (x : Word) (acc : BitVec s.width.W),
    (∀ (t : State) (rs : List Nat), runEdges ps s = .next (t, rs) →
      ∃ (t' : State) (rs' : List Nat),
        runEdges ps (s.setRegs { s.regs with S := x, ACC := acc }) = .next (t', rs') ∧
        t'.regs.outputs.cmdReady = t.regs.outputs.cmdReady ∧
        t'.regs.outputs.rspValid = t.regs.outputs.rspValid ∧ rs'.length = rs.length) ∧
    (∀ r : Refusal, runEdges ps s = .refused r →
      runEdges ps (s.setRegs { s.regs with S := x, ACC := acc }) = .refused r)

/-! ### The step -/

/-- A step runs the decoded command (R24, R29; logs 3, 4, 5): handed over to a reset block with nothing in
flight, exactly `exec` of it, the input taken off; while a command is in flight, a clock edge with the
word presented, the input kept; an edge input is that clock edge; with no input an edge with nothing
presented. -/
def Obligations.StepRunsTheDecodedCommand : Prop :=
  (∀ (s : State) (w : CmdWord) (i : Instr) (rest : List HostInput), s.live = true → s.regs.CNT = 0 →
    s.inputs = .command w :: rest → decode w = .ok i → step s = exec i (s.setInputs rest)) ∧
  (∀ (s : State) (w : CmdWord) (rest : List HostInput), s.live = true → s.regs.CNT ≠ 0 →
    s.inputs = .command w :: rest → step s = clockEdge (Pins.present w) s) ∧
  (∀ (s : State) (p : Pins) (rest : List HostInput), s.inputs = .edge p :: rest →
    step s = clockEdge p (s.setInputs rest)) ∧
  (∀ s : State, s.inputs = [] → step s = clockEdge Pins.idle s)

/-- A command word placed where the next step takes it (log 8) is the one the next step runs. -/
def Obligations.PlacedWordRunsNext : Prop :=
  ∀ (s : State) (nbits w : Nat) (i : Instr), decodeTableWord nbits w = some i →
    step (s.withFetchWord nbits w) =
      exec i { s with regs := { s.regs with CNT := 0 }, live := true }

/-- R36, R9: a word handed over to, or presented at an edge to, a reset block with nothing in flight is
refused exactly for a reserved opcode, a zero seed or a count above `W`, each under its own reason. The
handing over is the model's form of the host's moves (logs 3, 4). -/
def Obligations.WordsRefusedExactly : Prop :=
  ∀ (s : State) (w : CmdWord) (rest : List HostInput) (r : Refusal), s.live = true → s.regs.CNT = 0 →
    (step (s.setInputs (.command w :: rest)) = .refused r ↔
      (5 ≤ w.toNat / 2 ^ 32 ∧ r = .reservedOpcode) ∨
      (w.toNat = 2 ^ 32 ∧ r = .zeroSeed) ∨
      (w.toNat / 2 ^ 32 = 3 ∧ s.width.W < w.toNat % 2 ^ 32 ∧ r = .countExceedsWidth)) ∧
    (clockEdge (Pins.present w) s = .refused r ↔
      (5 ≤ w.toNat / 2 ^ 32 ∧ r = .reservedOpcode) ∨
      (w.toNat = 2 ^ 32 ∧ r = .zeroSeed) ∨
      (w.toNat / 2 ^ 32 = 3 ∧ s.width.W < w.toNat % 2 ^ 32 ∧ r = .countExceedsWidth))

/-- R84 (the two kinds of run, logs 3, 4): steps over a list of commands handed over are the command-level
run of those commands, and steps over a list of edges are the cycle-level run of those pins. -/
def Obligations.StepsFollowTheHostsMoves : Prop :=
  (∀ (is : List Instr) (s : State), s.live = true → s.regs.CNT = 0 →
    runSteps is.length (s.setInputs (is.map (fun i => .command (encode i)))) =
      runCommands is (s.setInputs [])) ∧
  (∀ (ps : List Pins) (s : State),
    runSteps ps.length (s.setInputs (ps.map .edge)) = runEdges ps (s.setInputs []))

/-- From R6, R17: no step changes the instance's width. The second clause is the model's choice and no rule
of the spec: a step leaves the host's coming moves as they were or takes exactly the next one off (log 3,
DESIGN CHOICE; log 5, DEDUCED). -/
def Obligations.StepKeepsWidthAndTakesOneMove : Prop :=
  ∀ s t : State, step s = .next t →
    t.width = s.width ∧ (t.inputs = s.inputs ∨ ∃ m, s.inputs = m :: t.inputs)

/-- R11, R13, R14, R55: from the first reset edge on the registers are sound, and every step keeps them
so. -/
def Obligations.StepKeepsRegistersSound : Prop :=
  ∀ s t : State, s.Inv → step s = .next t → t.Inv

/-- R21: the state after reset, for every width, and its soundness; with the launch states of R84. -/
def Obligations.ResetAndLaunchStatesAreSound : Prop :=
  (∀ w : Width, (State.resetOf w).live = true ∧ (State.resetOf w).Inv ∧ (State.resetOf w).Launch ∧
    (State.resetOf w).regs = { S := 0x00000001, ACC := 0, CNT := 0, DONE := false }) ∧
  State.reset = State.resetOf ⟨32, by decide⟩ ∧
  (∀ s : State, s.Launch → s.Inv)

/-- R84, R85, with the model's form of the host's moves (logs 3, 4, 5) and its reading of the duties at
reset and busy edges (log 18): under a host that keeps its duties a machine with sound registers never stops: every
number of steps answers a next state, sound again and with a host that conforms. -/
def Obligations.ConformingHostIsNeverRefused : Prop :=
  ∀ (k : Nat) (s : State), s.Safe → ∃ t : State, Host.Core.run core k s = .next t ∧ t.Safe
end

