-- ==== Sys2Proof/Laws/State.lean ====
section
/-! SUPPORT. One lemma per field per update of the machine's state, so that no proof unfolds a record
update. -/

namespace Sys2Proof.Machine

section Updates
variable (s : State) (r : Regs s.width.W) (l : List HostInput) (w : CmdWord)
  (S : Word) (acc cnt : Nat) (done : Bool)

@[simp] theorem setRegs_width : (s.setRegs r).width = s.width := rfl
@[simp] theorem setRegs_regs : (s.setRegs r).regs = r := rfl
@[simp] theorem setRegs_live : (s.setRegs r).live = s.live := rfl
@[simp] theorem setRegs_inputs : (s.setRegs r).inputs = s.inputs := rfl
@[simp] theorem setRegs_self : s.setRegs s.regs = s := rfl
@[simp] theorem setRegs_setRegs (r' : Regs s.width.W) : (s.setRegs r).setRegs r' = s.setRegs r' := rfl

@[simp] theorem setInputs_width : (s.setInputs l).width = s.width := rfl
@[simp] theorem setInputs_regs : (s.setInputs l).regs = s.regs := rfl
@[simp] theorem setInputs_live : (s.setInputs l).live = s.live := rfl
@[simp] theorem setInputs_inputs : (s.setInputs l).inputs = l := rfl
@[simp] theorem setInputs_self : s.setInputs s.inputs = s := rfl

@[simp] theorem powerUp_width : (s.powerUp S acc cnt done).width = s.width := rfl
@[simp] theorem powerUp_S : (s.powerUp S acc cnt done).regs.S = S := rfl
@[simp] theorem powerUp_ACC : (s.powerUp S acc cnt done).regs.ACC = BitVec.ofNat _ acc := rfl
@[simp] theorem powerUp_CNT : (s.powerUp S acc cnt done).regs.CNT = BitVec.ofNat _ cnt := rfl
@[simp] theorem powerUp_DONE : (s.powerUp S acc cnt done).regs.DONE = done := rfl
@[simp] theorem powerUp_live : (s.powerUp S acc cnt done).live = false := rfl
@[simp] theorem powerUp_inputs : (s.powerUp S acc cnt done).inputs = s.inputs := rfl

@[simp] theorem offerNext_width : (s.offerNext w).width = s.width := rfl
@[simp] theorem offerNext_live : (s.offerNext w).live = true := rfl
@[simp] theorem offerNext_inputs : (s.offerNext w).inputs = .command w :: s.inputs := rfl
@[simp] theorem offerNext_regs : (s.offerNext w).regs = { s.regs with CNT := 0 } := rfl

end Updates

section Reset
variable {W : Nat} (w : Width)

@[simp] theorem reset_S : (Regs.reset : Regs W).S = 1 := rfl
@[simp] theorem reset_ACC : (Regs.reset : Regs W).ACC = 0 := rfl
@[simp] theorem reset_CNT : (Regs.reset : Regs W).CNT = 0 := rfl
@[simp] theorem reset_DONE : (Regs.reset : Regs W).DONE = false := rfl
@[simp] theorem resetOf_width : (State.resetOf w).width = w := rfl
@[simp] theorem resetOf_regs : (State.resetOf w).regs = Regs.reset := rfl
@[simp] theorem resetOf_live : (State.resetOf w).live = true := rfl
@[simp] theorem resetOf_inputs : (State.resetOf w).inputs = [] := rfl

end Reset

section Registers
variable {W : Nat} (S arg : Word) (acc : BitVec W) (c : Controls W) (r : Regs W)

@[simp] theorem completed_S : (completed S acc).S = S := rfl
@[simp] theorem completed_ACC : (completed S acc).ACC = acc := rfl
@[simp] theorem completed_CNT : (completed S acc).CNT = 0 := rfl
@[simp] theorem completed_DONE : (completed S acc).DONE = true := rfl

@[simp] theorem latch_S : (latch c arg r).S = sMux c.sSel r.S arg := rfl
@[simp] theorem latch_ACC : (latch c arg r).ACC = aMux c.aSel r.ACC r.S := rfl
@[simp] theorem latch_CNT : (latch c arg r).CNT = c.cnt := rfl
@[simp] theorem latch_DONE : (latch c arg r).DONE = c.done := rfl

@[simp] theorem sMux_hold : sMux .hold S arg = S := rfl
@[simp] theorem sMux_default : sMux .default S arg = DEFAULT_SEED := rfl
@[simp] theorem sMux_seed : sMux .seed S arg = arg := rfl
@[simp] theorem sMux_step : sMux .step S arg = step32 S := rfl
@[simp] theorem aMux_hold : aMux .hold acc S = acc := rfl
@[simp] theorem aMux_clear : aMux .clear acc S = 0 := rfl
@[simp] theorem aMux_shift : aMux .shift acc S = shiftIn acc (outBit (step32 S)) := rfl

@[simp] theorem busy_eq_false : r.busy = false ↔ r.CNT = 0 := by simp [Regs.busy]
@[simp] theorem busy_eq_true : r.busy = true ↔ r.CNT ≠ 0 := by simp [Regs.busy]

end Registers

end Sys2Proof.Machine
end

