-- ==== Sys2Proof/Laws/Ops.lean ====
section
/-! SUPPORT. What each shared operation does, said once: the accumulator's shift, the extraction loop,
the operands. -/

namespace Sys2Proof.Machine

@[simp] theorem nextbit_fst (x : Word) : (nextbit x).1 = step32 x := rfl

@[simp] theorem nextbit_snd (x : Word) : (nextbit x).2 = outBit (step32 x) := rfl

/-- The accumulator's shift as arithmetic: double, add the bit, keep `W` bits (R46). -/
theorem shiftIn_toNat {W : Nat} (hW : 0 < W) (acc : BitVec W) (b : Bool) :
    (shiftIn acc b).toNat = (2 * acc.toNat + b.toNat) % 2 ^ W := by
  have h2 : 2 ∣ 2 ^ W := dvd_pow_self 2 (by omega)
  have hb : b.toNat % 2 ^ W = b.toNat := by
    apply Nat.mod_eq_of_lt
    have : 2 ≤ 2 ^ W := Nat.le_of_dvd (by positivity) h2
    have := Bool.toNat_lt b
    omega
  have hdis : 2 * (acc.toNat % 2 ^ (W - 1)) ||| b.toNat = 2 * (acc.toNat % 2 ^ (W - 1)) + b.toNat := by
    have h := Nat.two_pow_add_eq_or_of_lt (i := 1) (b := b.toNat) (Bool.toNat_lt b)
      (acc.toNat % 2 ^ (W - 1))
    simpa using h.symm
  have hmod : 2 * acc.toNat % 2 ^ W = 2 * (acc.toNat % 2 ^ (W - 1)) := by
    obtain ⟨v, rfl⟩ : ∃ v, W = v + 1 := ⟨W - 1, by omega⟩
    rw [Nat.pow_succ', Nat.mul_mod_mul_left, Nat.add_sub_cancel]
  have hlt : 2 * (acc.toNat % 2 ^ (W - 1)) + b.toNat < 2 ^ W := by
    obtain ⟨v, rfl⟩ : ∃ v, W = v + 1 := ⟨W - 1, by omega⟩
    have h1 := Nat.mod_lt acc.toNat (show 0 < 2 ^ (v + 1 - 1) by positivity)
    have h3 := Bool.toNat_lt b
    simp only [Nat.add_sub_cancel] at h1 ⊢
    rw [Nat.pow_succ']
    omega
  rw [← Nat.mod_add_mod, hmod, Nat.mod_eq_of_lt hlt, ← hdis]
  simp only [shiftIn, BitVec.toNat_or, BitVec.toNat_shiftLeft, BitVec.toNat_setWidth,
    BitVec.toNat_ofBool, Nat.shiftLeft_eq, Nat.pow_one, hb]
  rw [Nat.mul_comm acc.toNat 2, hmod]

@[simp] theorem extract_zero {W : Nat} (x : Word) (acc : BitVec W) : extract 0 x acc = (x, acc) := rfl

/-- One round of the loop first, the rest after it (R52). -/
theorem extract_succ {W : Nat} (n : Nat) (x : Word) (acc : BitVec W) :
    extract (n + 1) x acc = extract n (step32 x) (shiftIn acc (outBit (step32 x))) := rfl

/-- A loop of `m + n` rounds is a loop of `m` rounds and then one of `n`. -/
theorem extract_add {W : Nat} (m n : Nat) (x : Word) (acc : BitVec W) :
    extract (m + n) x acc = extract n (extract m x acc).1 (extract m x acc).2 := by
  induction m generalizing x acc with
  | zero => simp
  | succ m ih => rw [Nat.add_right_comm, extract_succ, extract_succ, ih]

/-- The state part of the loop does not see the accumulator. -/
theorem extract_fst_eq {W V : Nat} (n : Nat) (x : Word) (acc : BitVec W) (acc' : BitVec V) :
    (extract n x acc).1 = (extract n x acc').1 := by
  induction n generalizing x acc acc' with
  | zero => rfl
  | succ n ih => simpa only [extract_succ] using ih _ _ _

/-- The state after `n` rounds: `n` transitions (R52, R57). -/
theorem extract_fst {W : Nat} (n : Nat) (x : Word) (acc : BitVec W) :
    (extract n x acc).1 = step32^[n] x := by
  induction n generalizing x acc with
  | zero => rfl
  | succ n ih => rw [extract_succ, ih, Function.iterate_succ_apply]

@[simp] theorem streamNumber_zero (x : Word) : streamNumber 0 x = 0 := rfl

/-- The first bit of the stream has the highest weight; the rest is the stream of the next state. -/
theorem streamNumber_succ (n : Nat) (x : Word) :
    streamNumber (n + 1) x = (outBit (step32 x)).toNat * 2 ^ n + streamNumber n (step32 x) := by
  unfold streamNumber
  rw [Finset.sum_range_succ', add_comm]
  congr 1
  refine Finset.sum_congr rfl fun k _ => ?_
  rw [Function.iterate_succ_apply, show n + 1 - 1 - (k + 1) = n - 1 - k by omega]

/-- A number of `n` bits is below `2^n`. -/
theorem streamNumber_lt (n : Nat) (x : Word) : streamNumber n x < 2 ^ n := by
  induction n generalizing x with
  | zero => simp
  | succ n ih =>
    have h1 := ih (step32 x)
    have h2 := Bool.toNat_le (outBit (step32 x))
    rw [streamNumber_succ, Nat.pow_succ]
    nlinarith

/-- The accumulator after `n` rounds: what it held, moved up `n` places, with the next `n` bits of the
stream below, at width `W` (R52). -/
theorem extract_snd {W : Nat} (hW : 0 < W) (n : Nat) (x : Word) (acc : BitVec W) :
    (extract n x acc).2.toNat = (acc.toNat * 2 ^ n + streamNumber n x) % 2 ^ W := by
  induction n generalizing x acc with
  | zero => simp [Nat.mod_eq_of_lt acc.isLt]
  | succ n ih =>
    rw [extract_succ, ih, shiftIn_toNat hW, streamNumber_succ]
    conv_lhs => rw [Nat.add_mod, Nat.mod_mul_mod]
    rw [← Nat.add_mod]
    congr 1
    ring

@[simp] theorem extraction_CNT {W : Nat} (n : Nat) (r : Regs W) : (extraction n r).CNT = 0 := rfl

@[simp] theorem extraction_DONE {W : Nat} (n : Nat) (r : Regs W) : (extraction n r).DONE = true := rfl

/-- The operand of `SEED`: itself, or a refusal exactly when it is zero (R41). -/
theorem seedOperand_eq (x : Word) :
    seedOperand x = if x = 0 then .error .zeroSeed else .ok x := by
  by_cases h : x = 0 <;> simp [seedOperand, seedOk, h]

/-- The operand of `BITS`: its number, or a refusal exactly when it is above `W` (R54). -/
theorem countOperand_eq (W : Nat) (n : Word) :
    countOperand W n = if n.toNat ≤ W then .ok n.toNat else .error .countExceedsWidth := by
  simp [countOperand, countOk]

/-- `W` fits in `CNTW` bits (R6). -/
theorem width_lt_two_pow_cntw (W : Nat) : W < 2 ^ cntw W := Nat.lt_log2_self

/-- A counter that is not 0 counts down by one (R46: it never borrows below zero). -/
theorem counter_sub_one_toNat {W : Nat} {c : BitVec (cntw W)} (h : c ≠ 0) :
    (c - 1).toNat = c.toNat - 1 := by
  have h0 : c.toNat ≠ 0 := fun e => h (BitVec.eq_of_toNat_eq (by simpa using e))
  have h1 : (1 : BitVec (cntw W)).toNat = 1 := by simp
  rw [BitVec.toNat_sub_of_le (by rw [BitVec.le_def, h1]; omega), h1]

/-- The field `arg[CNTW-1:0]` loses nothing of a count up to `W` (R75). -/
theorem countField_toNat {W : Nat} {n : Word} (h : n.toNat ≤ W) : (countField W n).toNat = n.toNat := by
  rw [countField, BitVec.toNat_setWidth]
  exact Nat.mod_eq_of_lt (lt_of_le_of_lt h (width_lt_two_pow_cntw W))

end Sys2Proof.Machine
end

