-- ==== Sys2Proof/Laws/Clock.lean ====
section
/-! SUPPORT. What one clock edge and one step can do: the four cases of 70_reset_and_hazards.md R75, and
what every edge and every command leaves alone. -/

namespace Sys2Proof.Machine

section Cases
variable {W : Nat} {p : Pins} {r : Regs W}

theorem edgeControls_reset (h : p.rst = true) : edgeControls p r = .ok resetControls := by
  simp [edgeControls, h]

theorem edgeControls_micro (h : p.rst = false) (hb : r.busy = true) :
    edgeControls p r = .ok (microStepControls r) := by
  simp [edgeControls, h, hb]

theorem edgeControls_accept (h : p.rst = false) (hb : r.busy = false) (hv : p.cmdValid = true) :
    edgeControls p r = acceptWord p.cmdWord := by
  simp [edgeControls, h, hb, hv]

theorem edgeControls_idle (h : p.rst = false) (hb : r.busy = false) (hv : p.cmdValid = false) :
    edgeControls p r = .ok idleControls := by
  simp [edgeControls, h, hb, hv]

end Cases

/-- An edge of a block that has been reset writes the registers, and nothing else (R74, R75). -/
theorem clockEdge_live {p : Pins} {s : State} (h : s.live = true) :
    clockEdge p s = match edgeControls p s.regs with
      | .ok c => .next (s.setRegs (latch c (argField p.cmdWord) s.regs))
      | .error e => .refused e := by
  obtain ⟨w, r, l, i⟩ := s
  cases h
  simp only [clockEdge, Bool.true_or, if_true, Regs.edge, State.setRegs]
  cases edgeControls p r <;> rfl

/-- All an edge can do when it answers a next state: it had a meaning (R72), the four cases' controls
were written to the registers at once (R75), and nothing else changed but that the block has now been
reset. -/
theorem clockEdge_next {p : Pins} {s t : State} (h : clockEdge p s = .next t) :
    (s.live || p.rst) = true ∧ ∃ c, edgeControls p s.regs = .ok c ∧
      t = { s with regs := latch c (argField p.cmdWord) s.regs, live := true } := by
  unfold clockEdge at h
  split at h
  case isFalse => cases h
  case isTrue hl =>
    refine ⟨hl, ?_⟩
    unfold Regs.edge at h
    cases hc : edgeControls p s.regs with
    | error e => simp [hc] at h
    | ok c => exact ⟨c, rfl, by simpa [hc] using h.symm⟩

/-- An edge keeps the instance's width and the host's coming moves, and leaves the block reset. -/
theorem clockEdge_frame {p : Pins} {s t : State} (h : clockEdge p s = .next t) :
    t.width = s.width ∧ t.inputs = s.inputs ∧ t.live = true := by
  obtain ⟨-, c, -, rfl⟩ := clockEdge_next h
  exact ⟨rfl, rfl, rfl⟩

/-- No clock edge faults. -/
theorem clockEdge_ne_fault (p : Pins) (s : State) (f : Fault) : clockEdge p s ≠ .fault f := by
  cases f

/-- All a command can do when it answers a next state: it wrote the registers, and nothing else. -/
theorem exec_next {i : Instr} {s t : State} (h : exec i s = .next t) :
    ∃ S ACC, t = s.setRegs (completed S ACC) := by
  cases i with
  | init => exact ⟨_, _, by simpa [exec, execInit] using h.symm⟩
  | seed x =>
    simp only [exec, execSeed, seedOperand_eq] at h
    split_ifs at h with hx
    exact ⟨_, _, by simpa using h.symm⟩
  | bit => exact ⟨_, _, by simpa [exec, execBit] using h.symm⟩
  | bits n =>
    simp only [exec, execBits, countOperand_eq] at h
    split_ifs at h with hn
    exact ⟨_, _, by simpa [extraction] using h.symm⟩
  | byte => exact ⟨_, _, by simpa [exec, execByte, extraction] using h.symm⟩

/-- A command the host hands over to an idle block that has been reset. -/
theorem handOver_idle {w : CmdWord} {rest : List HostInput} {s : State} {i : Instr}
    (hl : s.live = true) (hb : s.regs.CNT = 0) (hc : commandOf w = .ok i) :
    handOver w rest s = .run i (s.setInputs rest) := by
  simp [handOver, hl, (busy_eq_false s.regs).2 hb, hc]

/-- A command the host hands over while another is in flight: a micro-step, and the host holds on. -/
theorem handOver_busy {w : CmdWord} {rest : List HostInput} {s : State}
    (hl : s.live = true) (hb : s.regs.CNT ≠ 0) : handOver w rest s = .edge (.present w) s := by
  simp [handOver, hl, (busy_eq_true s.regs).2 hb]

/-- A command handed over before the first reset edge. -/
theorem handOver_unreset {w : CmdWord} {rest : List HostInput} {s : State} (hl : s.live = false) :
    handOver w rest s = .refuse .beforeReset := by
  simp [handOver, hl]

end Sys2Proof.Machine
end

