-- ==== Sys2Proof/Laws/PerInstr.lean ====
section
/-! SUPPORT. Facts about every command as syntax, one lemma a constructor. -/

namespace Sys2Proof.Laws

/-- The two fields of a command's word are its opcode and its operand (R32). -/
def Fields.Statement (i : Instr) : Prop :=
  opField (encode i) = i.opcode ∧ argField (encode i) = i.operand

/-- The fields of a word put together from an opcode and an operand. -/
theorem fields_append (op : Opcode) (arg : Word) :
    opField (op ++ arg : CmdWord) = op ∧ argField (op ++ arg : CmdWord) = arg :=
  ⟨BitVec.extractLsb'_append_eq_left, BitVec.extractLsb'_append_eq_right⟩

theorem Fields.init : Fields.Statement .init := fields_append _ _
theorem Fields.seed (x : Word) : Fields.Statement (.seed x) := fields_append _ _
theorem Fields.bit : Fields.Statement .bit := fields_append _ _
theorem Fields.bits (n : Word) : Fields.Statement (.bits n) := fields_append _ _
theorem Fields.byte : Fields.Statement .byte := fields_append _ _

end Sys2Proof.Laws
end

