-- ==== Sys2Proof/Laws/Step.lean ====
section
/-! SUPPORT. What one step can do, said once, and how a run takes its steps apart. -/

namespace Sys2Proof.Machine

/-- A command word stands for a command exactly when it decodes to it. -/
theorem commandOf_ok {w : CmdWord} {i : Instr} : commandOf w = .ok i ↔ decode w = .ok i := by
  unfold commandOf
  cases decode w with
  | ok j => simp
  | error e => cases e; simp

/-- All a step can do when it answers a next state: a clock edge with nothing presented, with the pins
the host drives, or with a command word it holds while the block is busy; a whole command; or
power-up. -/
theorem step_next {s t : State} (h : step s = .next t) :
    (s.inputs = [] ∧ clockEdge .idle s = .next t) ∨
    (∃ p rest, s.inputs = .edge p :: rest ∧ clockEdge p (s.setInputs rest) = .next t) ∨
    (∃ w rest, s.inputs = .command w :: rest ∧ s.live = true ∧ s.regs.CNT ≠ 0 ∧
      clockEdge (.present w) s = .next t) ∨
    (∃ w rest i, s.inputs = .command w :: rest ∧ s.live = true ∧ s.regs.CNT = 0 ∧ decode w = .ok i ∧
      exec i (s.setInputs rest) = .next t) ∨
    (∃ S acc cnt done rest, s.inputs = .powerUp S acc cnt done :: rest ∧
      t = (s.setInputs rest).powerUp S acc cnt done) := by
  unfold step nextMove at h
  cases hin : s.inputs with
  | nil => exact .inl ⟨rfl, by simpa [hin] using h⟩
  | cons m rest =>
    refine .inr ?_
    cases m with
    | edge p => exact .inl ⟨p, rest, rfl, by simpa [hin] using h⟩
    | powerUp S acc cnt done =>
      exact .inr (.inr (.inr ⟨S, acc, cnt, done, rest, rfl, by simpa [hin] using h.symm⟩))
    | command w =>
      refine .inr ?_
      cases hl : s.live with
      | false => simp [hin, handOver_unreset hl] at h
      | true =>
        by_cases hc : s.regs.CNT = 0
        · refine .inr (.inl ?_)
          cases hi : commandOf w with
          | error r => simp [hin, handOver, hl, (busy_eq_false s.regs).2 hc, hi] at h
          | ok i =>
            exact ⟨w, rest, i, rfl, rfl, hc, commandOf_ok.1 hi,
              by simpa [hin, handOver_idle hl hc hi] using h⟩
        · exact .inl ⟨w, rest, rfl, rfl, hc, by simpa [hin, handOver_busy hl hc] using h⟩

/-- A run that goes on from an outcome to an end had a next state there, and went on from it. -/
theorem andThen_next {o : Host.Outcome State Fault Refusal}
    {k : State → Host.Outcome Observed Fault Refusal} {u : State} {rs : List Nat}
    (h : Observed.andThen o k = .next (u, rs)) :
    ∃ t rs', o = .next t ∧ k t = .next (u, rs') ∧ rs = t.regs.response ++ rs' := by
  unfold Observed.andThen at h
  cases o with
  | fault f => cases f
  | refused r => simp at h
  | next t =>
    cases hk : k t with
    | fault f => cases f
    | refused r => simp [hk] at h
    | next x =>
      obtain ⟨v, vs⟩ := x
      simp only [hk, Host.Outcome.next.injEq, Prod.mk.injEq] at h
      exact ⟨t, vs, rfl, by rw [hk, h.1], h.2.symm⟩

/-- Going on from a next state to an end puts its response first. -/
theorem andThen_of_next {t u : State} {rs : List Nat}
    {k : State → Host.Outcome Observed Fault Refusal} (h : k t = .next (u, rs)) :
    Observed.andThen (.next t) k = .next (u, t.regs.response ++ rs) := by
  simp [Observed.andThen, h]

/-- Going on from a next state to a refusal is that refusal. -/
theorem andThen_of_refused {t : State} {r : Refusal}
    {k : State → Host.Outcome Observed Fault Refusal} (h : k t = .refused r) :
    Observed.andThen (.next t) k = .refused r := by
  simp [Observed.andThen, h]

end Sys2Proof.Machine
end

