-- ==== Sys2Proof/Tests/Slice0.lean ====
section
/-! SUPPORT. Tests. Every expected value comes from spec/95_test_vectors.md or another file of spec/,
named at the test. Then, for every statement with hypotheses, a witness that meets them all. -/

namespace Sys2Proof.Tests

open Sys2Proof.Machine

/-- An instance of width 32 that has been reset, with these registers. -/
def at32 (S : Word) (ACC : BitVec 32) (CNT : Nat) (DONE : Bool) : State :=
  { width := Width.reference, regs := { S := S, ACC := ACC, CNT := BitVec.ofNat _ CNT, DONE := DONE },
    live := true, inputs := [] }

/-- An instance of width 8 after reset. -/
def small : State := State.resetOf ⟨8, by decide⟩

/-- The registers of an outcome as numbers, if it is a next state. -/
def regsOf (o : Host.Outcome State Fault Refusal) : Option (Nat × Nat × Nat × Bool) :=
  match o with
  | .next t => some (t.regs.S.toNat, t.regs.ACC.toNat, t.regs.CNT.toNat, t.regs.DONE)
  | .fault _ => none
  | .refused _ => none

/-- The reason of an outcome, if it is a refusal. -/
def refusalOf (o : Host.Outcome State Fault Refusal) : Option Refusal :=
  match o with
  | .next _ => none
  | .fault _ => none
  | .refused r => some r

/-! ### Well-formedness -/

theorem test_wellFormed_refuses_zero_seed : Instr.wellFormed 32 (.seed 0) = false := by decide
theorem test_wellFormed_accepts_top_seed : Instr.wellFormed 32 (.seed 0x80000000) = true := by decide
theorem test_wellFormed_refuses_count_above_width : Instr.wellFormed 32 (.bits 33) = false := by decide
theorem test_wellFormed_accepts_count_of_width : Instr.wellFormed 32 (.bits 32) = true := by decide

/-! ### Decoding: the words of 30_encoding.md R37 and 95_test_vectors.md 2.2 to 2.4 -/

theorem test_decode_init : decode 0b0000000000000000000000000000000000000000 = .ok .init := by decide
theorem test_decode_init_arg : decode 0x00FFFFFFFF = .ok .init := by decide
theorem test_decode_seed : decode 0b0000000111011110101011011011111011101111 = .ok (.seed 0xDEADBEEF) := by
  decide
theorem test_decode_bit : decode 0b0000001000000000000000000000000000000000 = .ok .bit := by decide
theorem test_decode_bits : decode 0b0000001100000000000000000000000000001010 = .ok (.bits 10) := by decide
theorem test_decode_byte : decode 0b0000010000000000000000000000000000000000 = .ok .byte := by decide
theorem test_decode_byte_arg : decode 0x0412345678 = .ok .byte := by decide
theorem test_decode_first_reserved : decode 0x0500000000 = .error (.reservedOpcode 0x05) := by decide
theorem test_decode_top_opcode_bit : decode 0x8000000000 = .error (.reservedOpcode 0x80) := by decide
theorem test_decode_last_reserved : decode 0xFFFFFFFFFF = .error (.reservedOpcode 0xFF) := by decide
theorem test_encode_seed : encode (.seed 0xDEADBEEF) = 0x01DEADBEEF := by decide
theorem test_encode_bits : encode (.bits 10) = 0x030000000A := by decide
theorem test_tableWord_byte : decodeTableWord 40 0x0400000000 = some .byte := by decide
theorem test_opcodeRows_disjoint :
    opcodeRows.Pairwise (fun a b => a.pattern &&& b.mask ≠ b.pattern) := by decide
theorem test_default_line : AsmLine.default.word? = some 0x0000000000 := by decide
theorem test_bits_line : (AsmLine.cmd (.bits 10)).text = "BITS 10" := by decide

/-! ### The transition (95_test_vectors.md 2.1) -/

theorem test_step32_lines : mixA 0x9DCCA8C5 = 0x08D408C5 ∧ mixB 0x08D408C5 = 0x08D40CAF ∧
    step32 0x9DCCA8C5 = 0x1255994F := by decide
theorem test_step32_top_bit : step32 0x80000000 = 0x80084000 := by decide
theorem test_unstep32_one : unstep32 0x00000001 = 0xF2B58529 ∧ step32 0xF2B58529 = 0x00000001 := by decide
theorem test_nextbit_even : nextbit 0x8EF917D1 = (0x2C6F5BD0, false) := by decide

/-! ### The commands (95_test_vectors.md 2.2, 2.3) -/

theorem test_init : regsOf (exec .init (at32 0xC613DB08 0x2CC 0 true)) = some (1, 0, 0, true) := by decide
theorem test_seed :
    regsOf (exec (.seed 0xDEADBEEF) (at32 1 0xF8 0 false)) = some (0xDEADBEEF, 0, 0, true) := by decide
theorem test_seed_zero_refused : refusalOf (exec (.seed 0) State.reset) = some .zeroSeed := by decide
theorem test_bit : regsOf (exec .bit State.reset) = some (0x00042021, 1, 0, true) := by decide
theorem test_bit_zero : regsOf (exec .bit (at32 0x00080000 0xFF 0 true)) = some (0x01080084, 0, 0, true) := by
  decide
theorem test_bits_ten : regsOf (exec (.bits 10) (at32 0x19F91CB2 0xF8 0 true)) =
    some (0xC613DB08, 0x2CC, 0, true) := by decide
theorem test_bits_full_width :
    regsOf (exec (.bits 32) State.reset) = some (0xCB682814, 0xF8B33F6A, 0, true) := by decide
theorem test_bits_none : regsOf (exec (.bits 0) State.reset) = some (1, 0, 0, true) := by decide
theorem test_bits_above_width_refused :
    refusalOf (exec (.bits 9) small) = some .countExceedsWidth := by decide
theorem test_byte : regsOf (exec .byte State.reset) = some (0x19F91CB2, 0xF8, 0, true) := by decide
theorem test_byte_small : regsOf (exec .byte small) = some (0x19F91CB2, 0xF8, 0, true) := by decide

/-! ### Single edges (95_test_vectors.md 2.5, 2.6 and program 3) -/

theorem test_edge_idle :
    regsOf (clockEdge .idle (at32 1 0xF8 0 true)) = some (1, 0xF8, 0, false) := by decide
theorem test_edge_accept_bits : regsOf (clockEdge (.present 0x030000000A) (at32 0x19F91CB2 0xF8 0 true)) =
    some (0x19F91CB2, 0, 10, false) := by decide
theorem test_edge_micro_step : regsOf (clockEdge (.present 0x0000000000) (at32 0x19F91CB2 0 10 false)) =
    some (0x77877125, 1, 9, false) := by decide
theorem test_edge_last_micro_step :
    regsOf (clockEdge .idle (at32 0x35219908 0x166 1 false)) = some (0xC613DB08, 0x2CC, 0, true) := by decide
theorem test_edge_top_bit_dropped :
    regsOf (clockEdge .idle (at32 0x80000000 0xFFFFFFFF 2 false)) =
      some (0x80084000, 0xFFFFFFFE, 1, false) := by decide
theorem test_edge_accept_init :
    regsOf (clockEdge (.present 0) (at32 0xC613DB08 0x2CC 0 true)) = some (1, 0, 0, true) := by decide
theorem test_edge_accept_bits_none :
    regsOf (clockEdge (.present 0x0300000000) (at32 1 0 0 true)) = some (1, 0, 0, true) := by decide
theorem test_edge_accept_seed :
    regsOf (clockEdge (.present 0x01DEADBEEF) (at32 1 0 0 false)) = some (0xDEADBEEF, 0, 0, true) := by
  decide
theorem test_edge_accept_bit :
    regsOf (clockEdge (.present 0x0200000000) (at32 0xDEADBEEF 0 0 true)) =
      some (0xDEADBEEF, 0, 1, false) := by decide
theorem test_edge_accept_byte :
    regsOf (clockEdge (.present 0x0400000000) State.reset) = some (1, 0, 8, false) := by decide
theorem test_edge_reset_in_flight :
    regsOf (clockEdge ⟨true, true, 0x0400000000⟩ (at32 0x9DCCA8C5 7 5 false)) = some (1, 0, 0, false) := by
  decide

/-! ### Steps (R72, 95_test_vectors.md 1.1 and 2.4) -/

/-- A host that powers the block up and presents nothing: the stand-in of program 3. -/
def poweredUp : State := (at32 0 0 0 false).powerUp 0xABCD1234 0x55 3 true

theorem test_step_source_vector :
    regsOf (step (State.reset.setInputs [hostInputOf (.cmd .byte)])) = some (0x19F91CB2, 0xF8, 0, true) := by
  decide
theorem test_step_reserved_refused :
    refusalOf (step (State.reset.setInputs [.command 0xFFFFFFFFFF])) = some .reservedOpcode := by decide
theorem test_step_before_reset_refused : refusalOf (step poweredUp) = some .beforeReset := by decide
theorem test_step_first_reset_edge :
    regsOf (step (poweredUp.setInputs [hostInputOf .reset])) = some (1, 0, 0, false) := by decide
theorem test_step_placed_word :
    regsOf (step (State.reset.withFetchWord 40 0x0200000000)) = some (0x00042021, 1, 0, true) := by decide

/-! ### Witnesses: states and operands that meet a statement's hypotheses together -/

/-- A block with a `BYTE` in flight: three bits drawn, five owed (95_test_vectors.md 2.5). -/
def inFlight : State := at32 0x9DCCA8C5 7 5 false

theorem witness_inFlight : inFlight.live = true ∧ inFlight.regs.CNT ≠ 0 ∧ inFlight.Inv := by decide

theorem witness_idle : State.reset.live = true ∧ State.reset.regs.CNT = 0 ∧ State.reset.Launch := by decide

/-- UnusedOperandFieldIsIgnored: an opcode and its command in the list. -/
theorem witness_unused_operand :
    ((0x04 : Opcode), Instr.byte) ∈ [((0x00 : Opcode), Instr.init), (0x02, .bit), (0x04, .byte)] := by decide

/-- OpcodeRowsSelectTheirCommands: a row of the table. -/
theorem witness_opcode_row : (⟨"BYTE", 0x0400000000, 0xFF00000000⟩ : OpcodeRow) ∈ opcodeRows := by decide

/-- TransitionIsLinearBijection, NonzeroStatesFormOneCycle: a nonzero state, another one reached from it,
and a count inside the cycle. -/
theorem witness_nonzero_states : (1 : Word) ≠ 0 ∧ (0x00042021 : Word) ≠ 0 ∧
    step32^[1] (1 : Word) = 0x00042021 ∧ 0 < 2 ^ 32 - 2 ∧ 2 ^ 32 - 2 < 2 ^ 32 - 1 := by decide

/-- InitConstructsDefaultSeed, third clause. -/
theorem witness_init_busy : inFlight.live = true ∧ inFlight.regs.CNT ≠ 0 ∧
    decode 0x0000000000 = .ok .init := by decide

/-- SeedConstructsGivenSeed: the ends of the range of legal seeds. -/
theorem witness_seed : (0x00000001 : Word) ≠ 0 ∧ (0xFFFFFFFF : Word) ≠ 0 := by decide

/-- ConstructionChangesInitialStateOnly. -/
theorem witness_construction :
    (∀ i ∈ [Instr.bit, .bits 3, .byte], i.isExtraction = true) ∧ (0xDEADBEEF : Word) ≠ 0 ∧
      (at32 0xDEADBEEF 0x55 0 true).width = State.reset.width ∧
      (at32 0xDEADBEEF 0x55 0 true).regs.CNT = 0 ∧ (at32 0xDEADBEEF 0x55 0 true).regs.S = 0xDEADBEEF := by
  decide

/-- ConstructionChangesInitialStateOnly, the clauses on where `P` goes and where it stops. -/
theorem witness_construction_outcomes :
    (∃ u rs, runCommands [.bit] State.reset = .next (u, rs)) ∧
      runCommands [.bits 33] State.reset = .refused .countExceedsWidth := ⟨⟨_, _, rfl⟩, rfl⟩

/-- BitExtractsOneBit, BitsExtractsCountFirstBitHighest, ByteExtractsEightBits: the ends of the range of
counts, the first count above it, and the state of the examples. -/
theorem witness_bits : (0 : Word).toNat ≤ State.reset.width.W ∧ (32 : Word).toNat ≤ State.reset.width.W ∧
    State.reset.width.W < (33 : Word).toNat ∧ State.reset.regs.S = 1 ∧ 10 ≤ State.reset.width.W := by decide

/-- ResultHoldsItsBitsInOrder: an extraction that completes, and its first and last bit. -/
theorem witness_result : Instr.isExtraction (.bits 32) = true ∧
    (∃ t, exec (.bits 32) State.reset = .next t) ∧ 0 < bitCount (.bits 32) ∧ 31 < bitCount (.bits 32) :=
  ⟨rfl, ⟨_, rfl⟩, by decide, by decide⟩

/-- SplittingAnExtraction: 18 = 8 + 10 (95_test_vectors.md 2.3), and the boundary 32 = 0 + 32. -/
theorem witness_splitting : (18 : Word).toNat = (8 : Word).toNat + (10 : Word).toNat ∧
    (18 : Word).toNat ≤ State.reset.width.W ∧ (32 : Word).toNat = (0 : Word).toNat + (32 : Word).toNat ∧
    (32 : Word).toNat ≤ State.reset.width.W := by decide

/-- BitStreamDoesNotDependOnTheCut. -/
theorem witness_cut : ∀ i ∈ [Instr.bit, .bits 0, .bits 32, .byte],
    i.isExtraction = true ∧ i.wellFormed State.reset.width.W = true := by decide

/-- CommandChangesRegistersOnly, StateRegisterStaysNonzero: a command and an edge that answer a next
state from a nonzero `S`, a reset edge, and a `SEED` that completes. -/
theorem witness_next : State.reset.regs.S ≠ 0 ∧ (∃ t, exec .byte State.reset = .next t) ∧
    (∃ t, clockEdge .idle State.reset = .next t) ∧ Pins.reset.rst = true ∧
    (∃ t, exec (.seed 2) State.reset = .next t) := ⟨by decide, ⟨_, rfl⟩, ⟨_, rfl⟩, rfl, ⟨_, rfl⟩⟩

/-- ResetEdgeWritesResetValues: two reset edges, one of them with a command presented. -/
theorem witness_reset : Pins.reset.rst = true ∧ (⟨true, true, 0x0400000000⟩ : Pins).rst = true := by decide

/-- ResetAbandonsCommandInFlight. -/
theorem witness_abandon : inFlight.live = true ∧ inFlight.regs.CNT ≠ 0 ∧ Pins.reset.rst = true ∧
    ∀ q ∈ [Pins.idle, Pins.idle], q.rst = false ∧ q.cmdValid = false := by decide

/-- NothingBeforeTheFirstResetEdge. -/
theorem witness_unreset : poweredUp.live = false ∧ Pins.idle.rst = false ∧ Pins.reset.rst = true := by decide

/-- ClockEdgeFollowsItsFourCases: reset; a micro-step; acceptance of each command, with each operand at
the two sides of its bound, and of a reserved opcode at both ends; idle. -/
theorem witness_edge_cases :
    State.reset.live = true ∧ inFlight.live = true ∧ Pins.reset.cmdWord = (0x00 : Opcode) ++ (0 : Word) ∧
    Pins.reset.rst = true ∧ Pins.idle.rst = false ∧ inFlight.regs.CNT ≠ 0 ∧ State.reset.regs.CNT = 0 ∧
    Pins.idle.cmdValid = false ∧
    (∀ w : CmdWord, (Pins.present w).rst = false ∧ (Pins.present w).cmdValid = true) ∧
    (Pins.present 0x0100000000).cmdWord = (0x01 : Opcode) ++ (0 : Word) ∧
    (Pins.present 0x0100000001).cmdWord = (0x01 : Opcode) ++ (1 : Word) ∧
    (Pins.present 0x0200000000).cmdWord = (0x02 : Opcode) ++ (0 : Word) ∧
    (Pins.present 0x0300000020).cmdWord = (0x03 : Opcode) ++ (32 : Word) ∧
    (Pins.present 0x0300000021).cmdWord = (0x03 : Opcode) ++ (33 : Word) ∧
    (Pins.present 0x0400000000).cmdWord = (0x04 : Opcode) ++ (0 : Word) ∧
    (Pins.present 0x0500000000).cmdWord = (0x05 : Opcode) ++ (0 : Word) ∧ 5 ≤ (0x05 : Opcode).toNat ∧
    (Pins.present 0xFFFFFFFFFF).cmdWord = (0xFF : Opcode) ++ (0xFFFFFFFF : Word) :=
  ⟨rfl, rfl, rfl, rfl, rfl, by decide, rfl, rfl, fun _ => ⟨rfl, rfl⟩, rfl, rfl, rfl, rfl, rfl, rfl, rfl,
    by decide, rfl⟩

/-- CounterHoldsEveryLegalCount: the smallest width and its largest count. -/
theorem witness_counter : (8 : Word).toNat ≤ small.width.W := by decide

/-- WordLookedAtOnlyWhenAccepted, second clause: a reset edge, an edge with nothing presented, a busy
block. -/
theorem witness_not_accepted : ¬ (true = false ∧ true = true ∧ State.reset.regs.CNT = 0) ∧
    ¬ (false = false ∧ false = true ∧ State.reset.regs.CNT = 0) ∧
    ¬ (false = false ∧ true = true ∧ inFlight.regs.CNT = 0) := by decide

/-- DoneMarksTheCompletingEdge: an edge that completes a command and one that does not. -/
theorem witness_done : (∃ t, clockEdge (.present 0) State.reset = .next t ∧ t.regs.DONE = true) ∧
    (∃ t, clockEdge .idle inFlight = .next t ∧ t.regs.DONE = false) :=
  ⟨⟨_, rfl, rfl⟩, ⟨_, rfl, rfl⟩⟩

/-- A command in flight, and the host holding the next one. -/
def holding : State := inFlight.setInputs [.command 0x0200000000]

/-- CommandHeldWhileBusyRunsWhenReady, StepRunsTheDecodedCommand (second clause). -/
theorem witness_holding : holding.live = true ∧ holding.regs.CNT ≠ 0 ∧
    holding.inputs = .command 0x0200000000 :: [] ∧ decode 0x0200000000 = .ok .bit := by decide

/-- IdleBlockHoldsItsState. -/
theorem witness_idle_edges : State.reset.live = true ∧ State.reset.regs.CNT = 0 ∧
    ∀ p ∈ [Pins.idle], p.rst = false ∧ p.cmdValid = false := by decide

/-- ClockedCommandAgreesWithCommandLevel: a `BYTE`, with another command presented all the while. -/
theorem witness_agreement : State.reset.live = true ∧ State.reset.regs.CNT = 0 ∧
    decode 0x0400000000 = .ok .byte ∧ Instr.wellFormed State.reset.width.W .byte = true ∧
    (List.replicate 8 (Pins.present 0)).length = bitCount .byte ∧
    (∀ p ∈ List.replicate 8 (Pins.present 0), p.rst = false) ∧ 7 < bitCount .byte := by decide

/-- ResponsesAreThoseOfAcceptedCommands: `BIT` accepted, its micro-step, and a gap. -/
theorem witness_responses : State.reset.live = true ∧ State.reset.regs.CNT = 0 ∧
    (∀ p ∈ [Pins.present 0x0200000000, .idle, .idle], p.rst = false) ∧
    ∃ t rs, runEdges [.present 0x0200000000, .idle, .idle] State.reset = .next (t, rs) ∧ t.regs.CNT = 0 :=
  ⟨rfl, rfl, by decide, _, _, rfl, rfl⟩

/-- CommandInFlightEnds. -/
theorem witness_ends : inFlight.live = true ∧ inFlight.Inv ∧ inFlight.regs.CNT ≠ 0 ∧
    (List.replicate 5 Pins.idle).length = inFlight.regs.CNT.toNat ∧
    ∀ p ∈ List.replicate 5 Pins.idle, p.rst = false := by decide

/-- TimingDoesNotRevealTheState: a run that goes on and one that stops. -/
theorem witness_timing : (∃ t rs, runEdges [.idle] inFlight = .next (t, rs)) ∧
    runEdges [.present 0x0500000000] State.reset = .refused .reservedOpcode := ⟨⟨_, _, rfl⟩, rfl⟩

/-- StepRunsTheDecodedCommand, the other clauses; StepsFollowTheHostsMoves. -/
theorem witness_step : (State.reset.setInputs [.command 0x0400000000]).live = true ∧
    (State.reset.setInputs [.command 0x0400000000]).regs.CNT = 0 ∧
    (State.reset.setInputs [.command 0x0400000000]).inputs = .command 0x0400000000 :: [] ∧
    decode 0x0400000000 = .ok .byte ∧
    (State.reset.setInputs [.edge .reset]).inputs = .edge .reset :: [] ∧ State.reset.inputs = [] := by decide

/-- PlacedWordRunsNext. -/
theorem witness_placed : decodeTableWord 40 0x0100000002 = some (.seed 2) := by decide

/-- WordsRefusedExactly: a reset block with nothing in flight, and a word under each clause. -/
theorem witness_refused : State.reset.live = true ∧ State.reset.regs.CNT = 0 ∧
    5 ≤ (0x0500000000 : CmdWord).toNat / 2 ^ 32 ∧ (0x0100000000 : CmdWord).toNat = 2 ^ 32 ∧
    (0x0300000021 : CmdWord).toNat / 2 ^ 32 = 3 ∧
    State.reset.width.W < (0x0300000021 : CmdWord).toNat % 2 ^ 32 := by decide

/-- StepKeepsWidthAndTakesOneMove, StepKeepsRegistersSound: a step from a state with sound registers. -/
theorem witness_step_next : holding.Inv ∧ ∃ t, step holding = .next t := ⟨by decide, _, rfl⟩

/-- ResetAndLaunchStatesAreSound: a launch state that is not the reset state. -/
theorem witness_launch : (at32 0xDEADBEEF 0x55 0 false).Launch := by decide

/-- ConformingHostIsNeverRefused: a command in flight, a held command, power-up, a reset edge, a command. -/
theorem witness_safe : (inFlight.setInputs [.command 0x0300000020, .powerUp 0 0x55 3 true, .edge .reset,
    .edge (.present 0x01DEADBEEF), .command 0x0400000000]).Safe := by decide

end Sys2Proof.Tests
end

section
/-! SUPPORT. When a command or a command word has no meaning, and for which reason: one predicate on
commands, met by `exec` and by `accept` alike, and the fields of a word that lead to it. -/

namespace Sys2Proof.Machine

/-! ### Commands -/

/-- The command has no meaning at width `W`, for the reason `r` (R41, R54). -/
def RefusedFor (W : Nat) (i : Instr) (r : Refusal) : Prop :=
  (i = .seed 0 ∧ r = .zeroSeed) ∨ (∃ n : Word, i = .bits n ∧ W < n.toNat ∧ r = .countExceedsWidth)

section
variable {W : Nat} {r : Refusal}

@[simp] theorem refusedFor_init : ¬ RefusedFor W .init r := by simp [RefusedFor]
@[simp] theorem refusedFor_bit : ¬ RefusedFor W .bit r := by simp [RefusedFor]
@[simp] theorem refusedFor_byte : ¬ RefusedFor W .byte r := by simp [RefusedFor]

@[simp] theorem refusedFor_seed {x : Word} : RefusedFor W (.seed x) r ↔ x = 0 ∧ r = .zeroSeed := by
  simp [RefusedFor]

@[simp] theorem refusedFor_bits {n : Word} :
    RefusedFor W (.bits n) r ↔ W < n.toNat ∧ r = .countExceedsWidth := by
  simp [RefusedFor]

theorem seedOperand_error {x : Word} : seedOperand x = .error r ↔ x = 0 ∧ r = .zeroSeed := by
  by_cases h : x = 0
  · simp [seedOperand_eq, h, eq_comm (a := r)]
  · simp only [seedOperand_eq, h, if_false, reduceCtorEq, false_and]

theorem countOperand_error {n : Word} :
    countOperand W n = .error r ↔ W < n.toNat ∧ r = .countExceedsWidth := by
  by_cases h : n.toNat ≤ W
  · simp [countOperand_eq, h]
  · simp [countOperand_eq, h, Nat.lt_of_not_le h, eq_comm (a := r)]

/-- A command applied whole is refused exactly where it has no meaning. -/
theorem exec_refused {i : Instr} {s : State} :
    exec i s = .refused r ↔ RefusedFor s.width.W i r := by
  cases i with
  | init => simp [exec, execInit]
  | bit => simp [exec, execBit]
  | byte => simp [exec, execByte]
  | seed x =>
    rw [refusedFor_seed, ← seedOperand_error]
    cases h : seedOperand x <;> simp [exec, execSeed, h]
  | bits n =>
    rw [refusedFor_bits, ← countOperand_error]
    cases h : countOperand s.width.W n <;> simp [exec, execBits, h]

/-- The edge that would accept a command refuses it exactly where it has no meaning. -/
theorem accept_error {i : Instr} : accept (W := W) i = .error r ↔ RefusedFor W i r := by
  cases i with
  | init => simp [accept, acceptInit]
  | bit => simp [accept, acceptBit]
  | byte => simp [accept, acceptByte]
  | seed x =>
    rw [refusedFor_seed, ← seedOperand_error]
    cases h : seedOperand x <;> simp [accept, acceptSeed, h]
  | bits n =>
    rw [refusedFor_bits, ← countOperand_error]
    cases h : countOperand W n <;> simp [accept, acceptBits, h]

end

/-- A command meets its precondition exactly when there is no reason to refuse it. -/
theorem wellFormed_iff_not_refusedFor {W : Nat} {i : Instr} :
    i.wellFormed W = true ↔ ∀ r, ¬ RefusedFor W i r := by
  cases i <;> simp [Instr.wellFormed, seedOk, countOk]

/-- A command completes or is refused: there is no fault (R60). -/
theorem exec_completes_iff_not_refused {i : Instr} {s : State} :
    (∃ t, exec i s = .next t) ↔ ∀ r, exec i s ≠ .refused r := by
  cases exec i s with
  | next t => simp
  | fault f => cases f
  | refused r => simp

/-- Settles O23: both halves read the one predicate `RefusedFor` off `exec`. -/
theorem commandCompletesOrIsRefused : Obligations.CommandCompletesOrIsRefused := by
  refine fun i s => ⟨?_, fun r => exec_refused⟩
  simp only [exec_completes_iff_not_refused, wellFormed_iff_not_refusedFor, Ne, exec_refused]

/-! ### Command words -/

section
variable {w : CmdWord}

theorem opField_toNat : (opField w).toNat = w.toNat / 2 ^ 32 := by
  rw [opField, BitVec.extractLsb'_toNat, Nat.shiftRight_eq_div_pow]
  exact Nat.mod_eq_of_lt (Nat.div_lt_of_lt_mul w.isLt)

theorem argField_toNat : (argField w).toNat = w.toNat % 2 ^ 32 := by
  rw [argField, BitVec.extractLsb'_toNat, Nat.shiftRight_zero]

theorem decode_ok_seed {x : Word} :
    decode w = .ok (.seed x) ↔ (opField w).toNat = 1 ∧ argField w = x := by
  unfold decode
  split <;> simp_all

theorem decode_ok_bits {n : Word} :
    decode w = .ok (.bits n) ↔ (opField w).toNat = 3 ∧ argField w = n := by
  unfold decode
  split <;> simp_all

theorem decode_error {e : DecodeError} :
    decode w = .error e ↔ 5 ≤ (opField w).toNat ∧ e = .reservedOpcode (opField w) := by
  unfold decode
  split
  case h_6 h0 h1 h2 h3 h4 =>
    have h5 : 5 ≤ (opField w).toNat := by simp only [imp_false] at *; omega
    simp [h5, eq_comm]
  all_goals simp [*]

theorem commandOf_error {r : Refusal} :
    commandOf w = .error r ↔ 5 ≤ (opField w).toNat ∧ r = .reservedOpcode := by
  unfold commandOf
  cases h : decode w with
  | ok i =>
    have h5 : ¬ 5 ≤ (opField w).toNat := fun h5 => by simp [decode_error.2 ⟨h5, rfl⟩] at h
    simp [h5]
  | error e =>
    obtain ⟨h5, rfl⟩ := decode_error.1 h
    simp [h5, eq_comm]

end

/-- The word has no meaning at width `W`, for the reason `r`: it is no command, or one without a meaning
(R36, R41, R54). -/
def WordRefusedFor (W : Nat) (w : CmdWord) (r : Refusal) : Prop :=
  commandOf w = .error r ∨ ∃ i, commandOf w = .ok i ∧ RefusedFor W i r

section
variable {W : Nat} {w : CmdWord} {r : Refusal}

/-- A word without a meaning is a reserved one, `SEED 0`, or `BITS` of a count above `W`. -/
theorem wordRefusedFor_iff_decode :
    WordRefusedFor W w r ↔ commandOf w = .error r ∨ (decode w = .ok (.seed 0) ∧ r = .zeroSeed) ∨
      (∃ n : Word, decode w = .ok (.bits n) ∧ W < n.toNat) ∧ r = .countExceedsWidth := by
  simp only [WordRefusedFor, RefusedFor, commandOf_ok]
  constructor
  · rintro (h | ⟨_, hd, ⟨rfl, rfl⟩ | ⟨n, rfl, hn, rfl⟩⟩)
    · exact .inl h
    · exact .inr (.inl ⟨hd, rfl⟩)
    · exact .inr (.inr ⟨⟨n, hd, hn⟩, rfl⟩)
  · rintro (h | ⟨hd, rfl⟩ | ⟨⟨n, hd, hn⟩, rfl⟩)
    · exact .inl h
    · exact .inr ⟨_, hd, .inl ⟨rfl, rfl⟩⟩
    · exact .inr ⟨_, hd, .inr ⟨n, rfl, hn, rfl⟩⟩

theorem decode_ok_seed_zero : decode w = .ok (.seed 0) ↔ w.toNat = 2 ^ 32 := by
  have h0 : (0 : Word).toNat = 0 := rfl
  rw [decode_ok_seed, ← BitVec.toNat_inj, opField_toNat, argField_toNat, h0]
  omega

theorem decode_ok_bits_above :
    (∃ n : Word, decode w = .ok (.bits n) ∧ W < n.toNat) ↔
      w.toNat / 2 ^ 32 = 3 ∧ W < w.toNat % 2 ^ 32 := by
  simp only [decode_ok_bits, ← opField_toNat, ← argField_toNat, and_assoc, exists_and_left,
    exists_eq_left']

/-- Which words have no meaning, read off the word as a number. -/
theorem wordRefusedFor_iff :
    WordRefusedFor W w r ↔
      (5 ≤ w.toNat / 2 ^ 32 ∧ r = .reservedOpcode) ∨ (w.toNat = 2 ^ 32 ∧ r = .zeroSeed) ∨
      (w.toNat / 2 ^ 32 = 3 ∧ W < w.toNat % 2 ^ 32 ∧ r = .countExceedsWidth) := by
  rw [wordRefusedFor_iff_decode, commandOf_error, decode_ok_seed_zero, decode_ok_bits_above,
    opField_toNat, and_assoc]

end

section
variable {s : State} {w : CmdWord} {r : Refusal}

/-- A word handed over to a reset block with nothing in flight: refused exactly where it has no meaning. -/
theorem step_command_refused {rest : List HostInput} (hl : s.live = true) (hc : s.regs.CNT = 0) :
    step (s.setInputs (.command w :: rest)) = .refused r ↔ WordRefusedFor s.width.W w r := by
  have hmove : nextMove (s.setInputs (.command w :: rest)) =
      handOver w rest (s.setInputs (.command w :: rest)) := rfl
  unfold WordRefusedFor
  cases h : commandOf w with
  | ok i =>
    rw [step, hmove, handOver_idle (by simpa using hl) (by simpa using hc) h]
    simp [exec_refused]
  | error e => simp [step, hmove, handOver, hl, (busy_eq_false s.regs).2 hc, h]

/-- A word presented at an edge to a reset block with nothing in flight: refused exactly where it has no
meaning. -/
theorem clockEdge_present_refused (hl : s.live = true) (hc : s.regs.CNT = 0) :
    clockEdge (.present w) s = .refused r ↔ WordRefusedFor s.width.W w r := by
  rw [clockEdge_live hl, edgeControls_accept rfl ((busy_eq_false s.regs).2 hc) rfl]
  unfold WordRefusedFor
  cases h : commandOf w with
  | error e => simp [acceptWord, Pins.present, h]
  | ok i =>
    have hi := accept_error (W := s.width.W) (r := r) (i := i)
    cases ha : accept (W := s.width.W) i <;> simp [acceptWord, Pins.present, h, ha, ← hi]

end

/-- Settles O42: both ways a word arrives refuse by `WordRefusedFor`. -/
theorem wordsRefusedExactly : Obligations.WordsRefusedExactly :=
  fun _ _ _ _ hl hc =>
    ⟨(step_command_refused hl hc).trans wordRefusedFor_iff,
     (clockEdge_present_refused hl hc).trans wordRefusedFor_iff⟩

end Sys2Proof.Machine
end

section
/-! SUPPORT. The width of the counter, and what no step changes. -/

namespace Sys2Proof.Machine

/-- `CNTW` bits are the fewest that hold `W` (R6). -/
theorem lt_two_pow_iff_cntw_le {W k : Nat} (hW : W ≠ 0) : W < 2 ^ k ↔ cntw W ≤ k :=
  (Nat.log2_lt hW).symm.trans Nat.succ_le_iff.symm

/-- A number up to `W` loaded into the counter is itself. -/
theorem ofNat_cntw_toNat {W n : Nat} (h : n ≤ W) : (BitVec.ofNat (cntw W) n).toNat = n :=
  (BitVec.toNat_ofNat ..).trans (Nat.mod_eq_of_lt (h.trans_lt (width_lt_two_pow_cntw W)))

/-- Settles O32: `CNTW` is one more than the logarithm of `W`, and every number up to `W` fits. -/
theorem counterHoldsEveryLegalCount : Obligations.CounterHoldsEveryLegalCount := by
  intro w
  have hW := w.ok
  exact ⟨fun k => lt_two_pow_iff_cntw_le (by omega), fun n => countField_toNat,
    ofNat_cntw_toNat hW, ofNat_cntw_toNat (n := 1) (by omega)⟩

/-- A command keeps the width, the reset mark and the host's coming moves. -/
theorem exec_frame {i : Instr} {s t : State} (h : exec i s = .next t) :
    t.width = s.width ∧ t.live = s.live ∧ t.inputs = s.inputs := by
  obtain ⟨S, ACC, rfl⟩ := exec_next h
  exact ⟨rfl, rfl, rfl⟩

/-- Settles O44: one case for each thing a step can be. -/
theorem stepKeepsWidthAndTakesOneMove : Obligations.StepKeepsWidthAndTakesOneMove := by
  intro s t h
  obtain ⟨-, he⟩ | ⟨p, rest, hin, he⟩ | ⟨w, rest, -, -, -, he⟩ |
    ⟨w, rest, i, hin, -, -, -, he⟩ | ⟨S, acc, cnt, done, rest, hin, rfl⟩ := step_next h
  case inl | inr.inr.inl =>
    obtain ⟨hw, hi, -⟩ := clockEdge_frame he
    exact ⟨hw, .inl hi⟩
  case inr.inl =>
    obtain ⟨hw, hi, -⟩ := clockEdge_frame he
    exact ⟨hw, .inr ⟨_, by rw [hin, hi, setInputs_inputs]⟩⟩
  case inr.inr.inr.inl =>
    obtain ⟨hw, -, hi⟩ := exec_frame he
    exact ⟨hw, .inr ⟨_, by rw [hin, hi, setInputs_inputs]⟩⟩
  case inr.inr.inr.inr => exact ⟨rfl, .inr ⟨_, hin⟩⟩

end Sys2Proof.Machine
end

section
/-! SUPPORT. The transition maps no nonzero state to zero (R47): each of its three lines xors a value with
a shift of itself, and a nonzero value is no proper shift of itself. -/

namespace Sys2Proof.Machine

section
variable {w k : Nat} {x : BitVec w}

/-- Each bit of such a value is one `k` places below it, and the lowest `k` are 0. -/
theorem eq_zero_of_eq_shiftLeft (hk : 0 < k) (h : x = x <<< k) : x = 0#w := by
  have hbit (i : Nat) : x.getLsbD i = false := by
    induction i using Nat.strong_induction_on with
    | _ i ih =>
      rw [h, BitVec.getLsbD_shiftLeft]
      by_cases hi : i < k
      · simp [hi]
      · simp [ih (i - k) (by omega)]
  exact BitVec.eq_of_getLsbD_eq fun i _ => by simp [hbit i]

theorem eq_zero_of_eq_ushiftRight (hk : 0 < k) (h : x = x >>> k) : x = 0#w := by
  have hdiv : x.toNat = x.toNat / 2 ^ k := by
    conv_lhs => rw [h, BitVec.toNat_ushiftRight, Nat.shiftRight_eq_div_pow]
  by_contra hx
  have hpos : 0 < x.toNat := Nat.pos_of_ne_zero fun h0 => hx (BitVec.eq_of_toNat_eq (by simpa using h0))
  have hlt := Nat.div_lt_self hpos (Nat.one_lt_two_pow hk.ne')
  omega

end

section
variable {x : Word}

theorem mixA_ne_zero (h : x ≠ 0) : mixA x ≠ 0 :=
  fun h0 => h (eq_zero_of_eq_shiftLeft (k := SH_A) (by decide) (BitVec.xor_eq_zero_iff.1 h0))

theorem mixB_ne_zero (h : x ≠ 0) : mixB x ≠ 0 :=
  fun h0 => h (eq_zero_of_eq_ushiftRight (k := SH_B) (by decide) (BitVec.xor_eq_zero_iff.1 h0))

theorem mixC_ne_zero (h : x ≠ 0) : mixC x ≠ 0 :=
  fun h0 => h (eq_zero_of_eq_shiftLeft (k := SH_C) (by decide) (BitVec.xor_eq_zero_iff.1 h0))

/-- The transition keeps a nonzero state nonzero (R11, R47). -/
theorem step32_ne_zero (h : x ≠ 0) : step32 x ≠ 0 := mixC_ne_zero (mixB_ne_zero (mixA_ne_zero h))

theorem iterate_step32_ne_zero (n : Nat) (h : x ≠ 0) : step32^[n] x ≠ 0 := by
  induction n generalizing x with
  | zero => exact h
  | succ n ih => exact ih (step32_ne_zero h)

end

end Sys2Proof.Machine
end

section
/-! SUPPORT. What the edge that accepts a command does, said once for all five commands, as a function of the
number of bits the command extracts; with it the inversion of one clock edge (R75). -/

namespace Sys2Proof.Machine

/-- The select of the state register at the edge that accepts the command (R75). -/
def acceptSel : Instr → SSel
  | .init => .default
  | .seed _ => .seed
  | .bit => .hold
  | .bits _ => .hold
  | .byte => .hold

/-- The edge that accepts the command (R75): the bits to extract go to `CNT`, and with none to extract the
command completes there. -/
def acceptControls (W : Nat) (i : Instr) : Controls W :=
  { sSel := acceptSel i, aSel := .clear, cnt := BitVec.ofNat _ (bitCount i), done := bitCount i == 0 }

section
variable {W : Nat} {i : Instr} {c : Controls W} {w : CmdWord}

theorem accept_of_wellFormed (h : i.wellFormed W = true) : accept i = .ok (acceptControls W i) := by
  cases i with
  | init => rfl
  | bit => rfl
  | byte => rfl
  | seed x =>
    have hx : x ≠ 0 := by simpa [Instr.wellFormed, seedOk] using h
    have hok : seedOperand x = .ok x := (seedOperand_eq x).trans (if_neg hx)
    simp [accept, acceptSeed, hok, acceptControls, acceptSel, bitCount]
  | bits n =>
    have hn : n.toNat ≤ W := by simpa [Instr.wellFormed, countOk] using h
    have hok : countOperand W n = .ok n.toNat := (countOperand_eq W n).trans (if_pos hn)
    simp [accept, acceptBits, hok, acceptControls, acceptSel, bitCount, countField, BitVec.ofNat_toNat]

/-- A command is accepted exactly when it meets its precondition, with its controls. -/
theorem accept_ok : accept i = .ok c ↔ i.wellFormed W = true ∧ c = acceptControls W i := by
  constructor
  · intro h
    have hwf : i.wellFormed W = true :=
      wellFormed_iff_not_refusedFor.2 fun r hr => by simp [accept_error.2 hr] at h
    exact ⟨hwf, by simpa [accept_of_wellFormed hwf] using h.symm⟩
  · rintro ⟨hwf, rfl⟩
    exact accept_of_wellFormed hwf

theorem acceptWord_ok :
    acceptWord w = .ok c ↔ ∃ i, decode w = .ok i ∧ i.wellFormed W = true ∧ c = acceptControls W i := by
  simp only [← commandOf_ok, ← accept_ok]
  unfold acceptWord
  cases commandOf w <;> simp

/-- Every admitted command extracts at most `W` bits (R6, R54). -/
theorem bitCount_le (hW : 8 ≤ W) (h : i.wellFormed W = true) : bitCount i ≤ W := by
  cases i with
  | init => exact Nat.zero_le W
  | seed x => exact Nat.zero_le W
  | bit => exact Nat.le_trans (by decide) hW
  | bits n => simpa [Instr.wellFormed, countOk, bitCount] using h
  | byte => exact hW

/-- The commands that extract no bit, and so complete at their acceptance (R75). -/
theorem bitCount_eq_zero : bitCount i = 0 ↔ i = .init ∨ (∃ x, i = .seed x) ∨ i = .bits 0 := by
  cases i with
  | init => simp [bitCount]
  | seed x => simp [bitCount]
  | bit => simp [bitCount]
  | bits n => simp [bitCount, ← BitVec.toNat_inj]
  | byte => simp [bitCount, BYTE_N]

theorem defaultSeed_ne_zero : DEFAULT_SEED ≠ 0 := by decide

/-- The state register at the edge that accepts an admitted command: nonzero if it was (R11). -/
theorem acceptSel_ne_zero {S : Word} (hd : decode w = .ok i) (hwf : i.wellFormed W = true) (hS : S ≠ 0) :
    sMux (acceptSel i) S (argField w) ≠ 0 := by
  cases i with
  | init => exact defaultSeed_ne_zero
  | seed x =>
    obtain ⟨-, rfl⟩ := decode_ok_seed.1 hd
    simpa [Instr.wellFormed, seedOk, acceptSel] using hwf
  | bit => exact hS
  | bits n => exact hS
  | byte => exact hS

/-- All an edge can do when it has a meaning: the four cases of R75, in their order of precedence. -/
theorem edgeControls_ok {p : Pins} {r : Regs W} (h : edgeControls p r = .ok c) :
    (p.rst = true ∧ c = resetControls) ∨
    (p.rst = false ∧ r.CNT ≠ 0 ∧ c = microStepControls r) ∨
    (p.rst = false ∧ r.CNT = 0 ∧ p.cmdValid = true ∧
      ∃ i, decode p.cmdWord = .ok i ∧ i.wellFormed W = true ∧ c = acceptControls W i) ∨
    (p.rst = false ∧ r.CNT = 0 ∧ p.cmdValid = false ∧ c = idleControls) := by
  cases hr : p.rst with
  | true => exact .inl ⟨rfl, by simpa [edgeControls_reset hr] using h.symm⟩
  | false =>
    cases hb : r.busy with
    | true =>
      exact .inr (.inl ⟨rfl, (busy_eq_true r).1 hb, by simpa [edgeControls_micro hr hb] using h.symm⟩)
    | false =>
      have hc := (busy_eq_false r).1 hb
      cases hv : p.cmdValid with
      | true =>
        rw [edgeControls_accept hr hb hv] at h
        exact .inr (.inr (.inl ⟨rfl, hc, rfl, acceptWord_ok.1 h⟩))
      | false =>
        exact .inr (.inr (.inr ⟨rfl, hc, rfl, by simpa [edgeControls_idle hr hb hv] using h.symm⟩))

end

/-- An edge with a meaning, whose command has one too, answers a next state. -/
theorem clockEdge_of_ok {p : Pins} {s : State} {c : Controls s.width.W}
    (hlive : (s.live || p.rst) = true) (hc : edgeControls p s.regs = .ok c) :
    clockEdge p s = .next { s with regs := latch c (argField p.cmdWord) s.regs, live := true } := by
  simp only [clockEdge, hlive, if_true, Regs.edge, hc]

end Sys2Proof.Machine
end

section
/-! SUPPORT. The state register stays nonzero (R11). -/

namespace Sys2Proof.Machine

/-- No edge of a nonzero state register makes it zero. -/
theorem latch_S_ne_zero {W : Nat} {p : Pins} {r : Regs W} {c : Controls W}
    (h : edgeControls p r = .ok c) (hS : r.S ≠ 0) : (latch c (argField p.cmdWord) r).S ≠ 0 := by
  obtain ⟨-, rfl⟩ | ⟨-, -, rfl⟩ | ⟨-, -, -, i, hd, hwf, rfl⟩ | ⟨-, -, -, rfl⟩ := edgeControls_ok h
  case inl => exact defaultSeed_ne_zero
  case inr.inl => exact step32_ne_zero hS
  case inr.inr.inl => exact acceptSel_ne_zero hd hwf hS
  case inr.inr.inr => exact hS

theorem extraction_S {W : Nat} (n : Nat) (r : Regs W) : (extraction n r).S = step32^[n] r.S :=
  extract_fst n r.S 0

/-- `SEED` completes only with a nonzero seed, and puts it in the state register (R41). -/
theorem execSeed_next {x : Word} {s t : State} (h : exec (.seed x) s = .next t) :
    t.regs.S = x ∧ x ≠ 0 := by
  simp only [exec, execSeed, seedOperand_eq] at h
  split_ifs at h with hx
  cases h
  exact ⟨rfl, hx⟩

/-- No command makes a nonzero state register zero. -/
theorem exec_S_ne_zero {i : Instr} {s t : State} (hS : s.regs.S ≠ 0) (h : exec i s = .next t) :
    t.regs.S ≠ 0 := by
  cases i with
  | init =>
    cases h
    exact defaultSeed_ne_zero
  | seed x =>
    obtain ⟨rfl, hx⟩ := execSeed_next h
    exact hx
  | bit =>
    cases h
    exact step32_ne_zero hS
  | bits n =>
    simp only [exec, execBits, countOperand_eq] at h
    split_ifs at h with hn
    cases h
    simpa [extraction_S] using iterate_step32_ne_zero n.toNat hS
  | byte =>
    cases h
    simpa [extraction_S] using iterate_step32_ne_zero BYTE_N hS

/-- Settles O25: the state register at an edge and under a command, and the values loaded into it. -/
theorem stateRegisterStaysNonzero : Obligations.StateRegisterStaysNonzero := by
  refine ⟨?_, fun i s t => exec_S_ne_zero, ?_, fun s => ⟨_, rfl, rfl⟩, fun x s t => execSeed_next⟩
  · intro p s t hS h
    obtain ⟨-, c, hc, rfl⟩ := clockEdge_next h
    exact latch_S_ne_zero hc hS
  · exact fun p s hp => ⟨_, clockEdge_of_ok (by simp [hp]) (edgeControls_reset hp), rfl⟩

end Sys2Proof.Machine
end

section
/-! SUPPORT. The registers stay sound from the first reset edge on (R11, R13, R14, R55). -/

namespace Sys2Proof.Machine

section
variable {W : Nat} {r : Regs W}

/-- With nothing in flight a nonzero state register is all soundness asks for. -/
theorem sound_of_CNT_eq_zero (hS : r.S ≠ 0) (hC : r.CNT = 0) : r.Sound := by
  refine ⟨hS, ?_, fun _ => hC, ?_⟩
  · simp [hC]
  · simpa [hC] using r.ACC.isLt

/-- One bit shifted in leaves room for the `n` still owed, if there was room for all `n + 1` (R55). -/
theorem shiftIn_room {acc : BitVec W} {n : Nat} (b : Bool) (hn : n + 1 ≤ W)
    (h : acc.toNat * 2 ^ (n + 1) < 2 ^ W) : (shiftIn acc b).toNat * 2 ^ n < 2 ^ W := by
  obtain ⟨k, rfl⟩ := Nat.exists_eq_add_of_le hn
  have hacc : acc.toNat + 1 ≤ 2 ^ k := by
    rw [Nat.pow_add 2 (n + 1) k, Nat.mul_comm (2 ^ (n + 1))] at h
    exact Nat.lt_of_mul_lt_mul_right h
  have hshift : (shiftIn acc b).toNat ≤ 2 * acc.toNat + b.toNat := by
    rw [shiftIn_toNat (by omega)]
    exact Nat.mod_le _ _
  have hb := Bool.toNat_le b
  calc (shiftIn acc b).toNat * 2 ^ n
      < (2 * 2 ^ k) * 2 ^ n := Nat.mul_lt_mul_of_pos_right (by omega) (by positivity)
    _ = 2 ^ (n + 1 + k) := by ring

/-- A micro-step counts down, shows its response only as the last one, and drops no bit (R75). -/
theorem latch_microStep_sound (arg : Word) (hr : r.Sound) (hC : r.CNT ≠ 0) :
    (latch (microStepControls r) arg r).Sound := by
  obtain ⟨hS, hle, -, hroom⟩ := hr
  have hpos : r.CNT.toNat ≠ 0 := fun h0 => hC (BitVec.eq_of_toNat_eq (by simpa using h0))
  have hcnt : (r.CNT - 1).toNat + 1 = r.CNT.toNat := by rw [counter_sub_one_toNat hC]; omega
  rw [← hcnt] at hle hroom
  refine ⟨step32_ne_zero hS, ?_, fun hdone => ?_, shiftIn_room _ hle hroom⟩
  · exact Nat.le_of_succ_le hle
  · have hlast : r.CNT = 1 := by simpa [microStepControls, lastMicroStep] using hdone
    simp [microStepControls, hlast]

/-- Acceptance clears `ACC` and owes at most `W` bits; it completes only where it owes none (R75). -/
theorem latch_accept_sound {i : Instr} {arg : Word} (hW : 8 ≤ W) (hwf : i.wellFormed W = true)
    (hS : (latch (acceptControls W i) arg r).S ≠ 0) : (latch (acceptControls W i) arg r).Sound := by
  have hle := bitCount_le hW hwf
  refine ⟨hS, ?_, fun hdone => ?_, ?_⟩
  · simpa [acceptControls, ofNat_cntw_toNat hle] using hle
  · have hzero : bitCount i = 0 := by simpa [acceptControls] using hdone
    simp [acceptControls, hzero]
  · simp [acceptControls]

/-- Every edge keeps the registers sound, and a reset edge makes them so. -/
theorem latch_sound {p : Pins} {c : Controls W} (hW : 8 ≤ W) (hr : p.rst = false → r.Sound)
    (h : edgeControls p r = .ok c) : (latch c (argField p.cmdWord) r).Sound := by
  obtain ⟨-, rfl⟩ | ⟨hp, hC, rfl⟩ | ⟨hp, -, -, i, -, hwf, rfl⟩ | ⟨hp, -, -, rfl⟩ := edgeControls_ok h
  case inl => exact sound_of_CNT_eq_zero defaultSeed_ne_zero rfl
  case inr.inl => exact latch_microStep_sound _ (hr hp) hC
  case inr.inr.inl => exact latch_accept_sound hW hwf (latch_S_ne_zero h (hr hp).1)
  case inr.inr.inr => exact sound_of_CNT_eq_zero (latch_S_ne_zero h (hr hp).1) rfl

end

section
variable {s t : State}

theorem clockEdge_inv {p : Pins} (hs : s.Inv) (h : clockEdge p s = .next t) : t.Inv := by
  obtain ⟨hlive, c, hc, rfl⟩ := clockEdge_next h
  exact fun _ => latch_sound s.width.ok (fun hp => hs (by simpa [hp] using hlive)) hc

theorem exec_inv {i : Instr} (hs : s.Inv) (h : exec i s = .next t) : t.Inv := by
  intro ht
  obtain ⟨-, hlive, -⟩ := exec_frame h
  have hS := exec_S_ne_zero (hs (hlive ▸ ht)).1 h
  obtain ⟨S, ACC, rfl⟩ := exec_next h
  exact sound_of_CNT_eq_zero hS rfl

end

/-- Settles O45: one case for each thing a step can be; a power-up takes the reset mark away. -/
theorem stepKeepsRegistersSound : Obligations.StepKeepsRegistersSound := by
  intro s t hs h
  obtain ⟨-, he⟩ | ⟨p, rest, -, he⟩ | ⟨w, rest, -, -, -, he⟩ |
    ⟨w, rest, i, -, -, -, -, he⟩ | ⟨S, acc, cnt, done, rest, -, rfl⟩ := step_next h
  case inl | inr.inr.inl => exact clockEdge_inv hs he
  case inr.inl => exact clockEdge_inv (s := s.setInputs rest) hs he
  case inr.inr.inr.inl => exact exec_inv (s := s.setInputs rest) hs he
  case inr.inr.inr.inr => exact fun hlive => nomatch hlive

/-- Settles O46: the reset values, and soundness of a block with nothing in flight. -/
theorem resetAndLaunchStatesAreSound : Obligations.ResetAndLaunchStatesAreSound := by
  refine ⟨fun w => ⟨rfl, ?_, ?_, rfl⟩, rfl, ?_⟩
  · exact fun _ => sound_of_CNT_eq_zero defaultSeed_ne_zero rfl
  · exact ⟨rfl, rfl, rfl, defaultSeed_ne_zero⟩
  · rintro s ⟨-, hC, -, hS⟩ -
    exact sound_of_CNT_eq_zero hS hC

end Sys2Proof.Machine
end

section
/-! SUPPORT. What a command and an edge do to the registers besides the data: the frame of every command
(R29), and the completing edges (R14). -/

namespace Sys2Proof.Machine

/-- A command reads no register but `S`. -/
theorem exec_setRegs {i : Instr} {s : State} {r : Regs s.width.W} (h : r.S = s.regs.S) :
    exec i (s.setRegs r) = exec i s := by
  cases i with
  | init => rfl
  | seed x => rfl
  | bit => simp [exec, execBit, h]
  | bits n => simp [exec, execBits, extraction, h]
  | byte => simp [exec, execByte, extraction, h]

/-- Settles O24: a command writes `completed` registers, computed from `S` alone. -/
theorem commandChangesRegistersOnly : Obligations.CommandChangesRegistersOnly := by
  refine ⟨fun i s t h => ?_, fun i s acc cnt done => exec_setRegs rfl⟩
  obtain ⟨S, ACC, rfl⟩ := exec_next h
  exact ⟨rfl, rfl, rfl, rfl, rfl⟩

/-- The completing edges: the last micro-step, and the acceptance of a command that extracts no bit. -/
theorem edgeControls_done {W : Nat} {p : Pins} {r : Regs W} {c : Controls W}
    (h : edgeControls p r = .ok c) :
    c.done = true ↔ p.rst = false ∧ (r.CNT = 1 ∨
      (r.CNT = 0 ∧ p.cmdValid = true ∧ ∃ i, decode p.cmdWord = .ok i ∧ bitCount i = 0)) := by
  obtain ⟨hp, rfl⟩ | ⟨hp, hC, rfl⟩ | ⟨hp, hC, hv, i, hd, -, rfl⟩ | ⟨hp, hC, hv, rfl⟩ := edgeControls_ok h
  case inl => simp [hp, resetControls]
  case inr.inl => 
    simp only [hp, hC, microStepControls, lastMicroStep, beq_iff_eq, true_and, false_and, or_false]
  case inr.inr.inl => simp [hp, hC, hv, hd, acceptControls]
  case inr.inr.inr => simp [hp, hC, hv, idleControls]

/-- The words of the commands that extract no bit. -/
theorem decode_extractsNothing {w : CmdWord} :
    (∃ i, decode w = .ok i ∧ bitCount i = 0) ↔
      decode w = .ok .init ∨ (∃ x, decode w = .ok (.seed x)) ∨ decode w = .ok (.bits 0) := by
  simp only [bitCount_eq_zero]
  constructor
  · rintro ⟨_, hd, rfl | ⟨x, rfl⟩ | rfl⟩
    · exact .inl hd
    · exact .inr (.inl ⟨x, hd⟩)
    · exact .inr (.inr hd)
  · rintro (hd | ⟨x, hd⟩ | hd)
    · exact ⟨_, hd, .inl rfl⟩
    · exact ⟨_, hd, .inr (.inl ⟨x, rfl⟩)⟩
    · exact ⟨_, hd, .inr (.inr rfl)⟩

/-- Settles O33: the completing edges, and which commands extract no bit. -/
theorem doneMarksTheCompletingEdge : Obligations.DoneMarksTheCompletingEdge := by
  intro p s t h
  obtain ⟨-, c, hc, rfl⟩ := clockEdge_next h
  rw [← decode_extractsNothing]
  exact ⟨rfl, edgeControls_done hc⟩

end Sys2Proof.Machine
end

section
/-! SUPPORT. What the data registers `S` and `ACC` cannot reach: which edges have a meaning, the reason
when one has none, `CNT` and `DONE` (R18, R83). -/

namespace Sys2Proof.Machine

/-- The machine with other values in the two data registers. -/
def State.withData (s : State) (x : Word) (acc : BitVec s.width.W) : State :=
  s.setRegs { s.regs with S := x, ACC := acc }

@[simp] theorem withData_DONE (s : State) (x : Word) (acc : BitVec s.width.W) :
    (s.withData x acc).regs.DONE = s.regs.DONE := rfl

/-- An edge is refused before the first reset edge, and where its command has no meaning. -/
theorem clockEdge_refused {p : Pins} {s : State} {r : Refusal} :
    clockEdge p s = .refused r ↔
      ((s.live || p.rst) = false ∧ r = .beforeReset) ∨
      ((s.live || p.rst) = true ∧ edgeControls p s.regs = .error r) := by
  cases hlive : s.live || p.rst with
  | false => simp [clockEdge, hlive, eq_comm]
  | true => cases hc : edgeControls p s.regs <;> simp [clockEdge, Regs.edge, hlive, hc]

/-- A run that goes on from an outcome is refused there or further on. -/
theorem andThen_refused {o : Host.Outcome State Fault Refusal}
    {k : State → Host.Outcome Observed Fault Refusal} {r : Refusal} :
    Observed.andThen o k = .refused r ↔ o = .refused r ∨ ∃ t, o = .next t ∧ k t = .refused r := by
  cases o with
  | fault f => cases f
  | refused r' => simp [Observed.andThen]
  | next t => cases hk : k t <;> simp [Observed.andThen, hk]

/-- `DONE` alone says whether a response shows (R25). -/
theorem response_length {W : Nat} (r : Regs W) : r.response.length = r.DONE.toNat := by
  cases h : r.DONE <;> simp [Regs.response, h]

section
variable {s t : State} (x : Word) (acc : BitVec s.width.W)

/-- With other data an edge answers where it did, and only the data differ after it. -/
theorem clockEdge_withData_next {p : Pins} (h : clockEdge p s = .next t) :
    ∃ x' acc', clockEdge p (s.withData x acc) = .next (t.withData x' acc') := by
  obtain ⟨hlive, c, hc, rfl⟩ := clockEdge_next h
  exact ⟨_, _, clockEdge_of_ok (s := s.withData x acc) hlive hc⟩

/-- With other data an edge is refused where it was, for the same reason. -/
theorem clockEdge_withData_refused {p : Pins} {r : Refusal} (h : clockEdge p s = .refused r) :
    clockEdge p (s.withData x acc) = .refused r :=
  clockEdge_refused.2 ((clockEdge_refused (s := s)).1 h)

/-- With other data a run ends where it did, with as many responses, and only the data differ. -/
theorem runEdges_withData_next {ps : List Pins} {rs : List Nat} (h : runEdges ps s = .next (t, rs)) :
    ∃ x' acc' rs', runEdges ps (s.withData x acc) = .next (t.withData x' acc', rs') ∧
      rs'.length = rs.length := by
  induction ps generalizing s x rs with
  | nil =>
    cases h
    exact ⟨x, acc, [], rfl, rfl⟩
  | cons p ps ih =>
    obtain ⟨u, us, hu, hrun, rfl⟩ := andThen_next h
    obtain ⟨y, acc₁, hu'⟩ := clockEdge_withData_next x acc hu
    obtain ⟨x', acc', us', hrun', hlen⟩ := ih y acc₁ hrun
    refine ⟨x', acc', (u.withData y acc₁).regs.response ++ us', ?_, ?_⟩
    · rw [runEdges, hu', andThen_of_next hrun']
    · simp [response_length, hlen]

/-- With other data a run is refused where it was, for the same reason. -/
theorem runEdges_withData_refused {ps : List Pins} {r : Refusal} (h : runEdges ps s = .refused r) :
    runEdges ps (s.withData x acc) = .refused r := by
  induction ps generalizing s x with
  | nil => cases h
  | cons p ps ih =>
    rcases andThen_refused.1 h with hp | ⟨u, hu, hrun⟩
    · exact andThen_refused.2 (.inl (clockEdge_withData_refused x acc hp))
    · obtain ⟨y, acc₁, hu'⟩ := clockEdge_withData_next x acc hu
      exact andThen_refused.2 (.inr ⟨_, hu', ih y acc₁ hrun⟩)

end

/-- Settles O39: runs of two states that differ in the data go side by side. -/
theorem timingDoesNotRevealTheState : Obligations.TimingDoesNotRevealTheState := by
  refine fun ps s x acc => ⟨fun t rs h => ?_, fun r => runEdges_withData_refused x acc⟩
  obtain ⟨x', acc', rs', hrun, hlen⟩ := runEdges_withData_next x acc h
  exact ⟨_, rs', hrun, rfl, rfl, hlen⟩

end Sys2Proof.Machine
end

section
/-! SUPPORT. How a command word reaches the block: at an edge that accepts it, and at no other (R24, R74), and
as the host's next move at a step (R29, R77). -/

namespace Sys2Proof.Machine

/-- Forgetting the reason of an error keeps exactly the values. -/
theorem toOption_eq_some {ε α : Type} {x : Except ε α} {a : α} : x.toOption = some a ↔ x = .ok a := by
  cases x <;> simp [Except.toOption]

/-! ### At an edge -/

/-- The command accepted at an edge, if there is one (R24). -/
theorem acceptedAt_eq_singleton {p : Pins} {s : State} {i : Instr} :
    acceptedAt p s = [i] ↔
      p.rst = false ∧ p.cmdValid = true ∧ s.regs.busy = false ∧ decode p.cmdWord = .ok i := by
  have hpins : (!p.rst && p.cmdValid && !s.regs.busy) = true ↔
      p.rst = false ∧ p.cmdValid = true ∧ s.regs.busy = false := by
    simp only [Bool.and_eq_true, Bool.not_eq_true', and_assoc]
  unfold acceptedAt
  split
  case isTrue h =>
    obtain ⟨hr, hv, hb⟩ := hpins.1 h
    simp [hr, hv, hb, Option.toList_eq_singleton_iff, toOption_eq_some, commandOf_ok]
  case isFalse h =>
    exact iff_of_false (List.cons_ne_nil i []).symm fun ⟨hr, hv, hb, _⟩ => h (hpins.2 ⟨hr, hv, hb⟩)

/-- Only the select of `SEED` looks at the operand field (R38). -/
theorem latch_arg_irrelevant {W : Nat} {c : Controls W} (h : c.sSel ≠ .seed) (a b : Word) (r : Regs W) :
    latch c a r = latch c b r := by
  cases hsel : c.sSel with
  | seed => exact absurd hsel h
  | hold | default | step => simp [latch, hsel]

/-- At an edge that accepts no command the controls are the same for every word, and select no operand. -/
theorem edgeControls_of_not_accepting {W : Nat} {rst valid : Bool} {r : Regs W}
    (h : ¬ (rst = false ∧ valid = true ∧ r.CNT = 0)) :
    ∃ c, c.sSel ≠ .seed ∧ ∀ w, edgeControls ⟨rst, valid, w⟩ r = .ok c := by
  cases rst with
  | true => exact ⟨resetControls, nofun, fun _ => edgeControls_reset rfl⟩
  | false =>
    cases hb : r.busy with
    | true => exact ⟨microStepControls r, nofun, fun _ => edgeControls_micro rfl hb⟩
    | false =>
      cases valid with
      | true => exact absurd ⟨rfl, rfl, (busy_eq_false r).1 hb⟩ h
      | false => exact ⟨idleControls, nofun, fun _ => edgeControls_idle rfl hb rfl⟩

/-- An edge that accepts no command has the same effect with every word (R24). -/
theorem clockEdge_word_irrelevant {s : State} {rst valid : Bool}
    (h : ¬ (rst = false ∧ valid = true ∧ s.regs.CNT = 0)) (w w' : CmdWord) :
    clockEdge ⟨rst, valid, w⟩ s = clockEdge ⟨rst, valid, w'⟩ s := by
  cases hlive : s.live || rst with
  | false =>
    rw [clockEdge_refused.2 (.inl ⟨hlive, rfl⟩), clockEdge_refused.2 (.inl ⟨hlive, rfl⟩)]
  | true =>
    obtain ⟨c, hsel, hc⟩ := edgeControls_of_not_accepting h
    rw [clockEdge_of_ok hlive (hc w), clockEdge_of_ok hlive (hc w'), latch_arg_irrelevant hsel]

/-- Settles O31: the accepting edges, and the other edges' indifference to the word. -/
theorem wordLookedAtOnlyWhenAccepted : Obligations.WordLookedAtOnlyWhenAccepted := by
  refine ⟨fun p s i => ?_, fun s rst valid w w' h => clockEdge_word_irrelevant h w w'⟩
  rw [acceptedAt_eq_singleton]
  simp only [Regs.outputs, Bool.not_eq_true']

/-! ### At a step -/

section
variable {s : State} {rest : List HostInput}

/-- A command the host hands over is the next move, as `handOver` makes it. -/
theorem nextMove_command {w : CmdWord} (h : s.inputs = .command w :: rest) :
    nextMove s = handOver w rest s := by
  simp [nextMove, h]

theorem step_command_idle {w : CmdWord} {i : Instr} (hl : s.live = true) (hc : s.regs.CNT = 0)
    (hin : s.inputs = .command w :: rest) (hd : decode w = .ok i) :
    step s = exec i (s.setInputs rest) := by
  rw [step, nextMove_command hin, handOver_idle hl hc (commandOf_ok.2 hd)]

theorem step_command_busy {w : CmdWord} (hl : s.live = true) (hc : s.regs.CNT ≠ 0)
    (hin : s.inputs = .command w :: rest) : step s = clockEdge (.present w) s := by
  rw [step, nextMove_command hin, handOver_busy hl hc]

theorem step_edge {p : Pins} (hin : s.inputs = .edge p :: rest) :
    step s = clockEdge p (s.setInputs rest) := by
  simp [step, nextMove, hin]

theorem step_no_input (hin : s.inputs = []) : step s = clockEdge .idle s := by
  simp [step, nextMove, hin]

end

/-- Settles O40: one lemma for each of the four moves. -/
theorem stepRunsTheDecodedCommand : Obligations.StepRunsTheDecodedCommand :=
  ⟨fun _ _ _ _ => step_command_idle, fun _ _ _ => step_command_busy, fun _ _ _ => step_edge,
    fun _ => step_no_input⟩

/-- Settles O41: the placed word is a command handed over to an idle block that has been reset. -/
theorem placedWordRunsNext : Obligations.PlacedWordRunsNext := by
  intro s nbits w i h
  have hd : decode (tableWord nbits w) = .ok i := toOption_eq_some.1 h
  exact step_command_idle (s := s.withFetchWord nbits w) rfl rfl rfl hd

end Sys2Proof.Machine
end

section
/-! SUPPORT. The command word and its two fields: which command a word decodes to, the word of a command as a
number, the match and mask rows, and the operand field that is not looked at (R32 to R37); with them the two
multiplexers (R38). -/

namespace Sys2Proof.Machine

/-! ### Which words decode to a command -/

/-- The command with its operand replaced, where it has one (R34). -/
def withOperand : Instr → Word → Instr
  | .init, _ => .init
  | .seed _, x => .seed x
  | .bit, _ => .bit
  | .bits _, n => .bits n
  | .byte, _ => .byte

theorem withOperand_operand (i : Instr) : withOperand i i.operand = i := by
  cases i <;> rfl

@[simp] theorem withOperand_withOperand (i : Instr) (x y : Word) :
    withOperand (withOperand i x) y = withOperand i y := by
  cases i <;> rfl

@[simp] theorem opcode_withOperand (i : Instr) (x : Word) : (withOperand i x).opcode = i.opcode := by
  cases i <;> rfl

@[simp] theorem mnemonic_withOperand (i : Instr) (x : Word) : (withOperand i x).mnemonic = i.mnemonic := by
  cases i <;> rfl

/-- The two fields of a command's word (R32). -/
theorem encode_fields (i : Instr) : opField (encode i) = i.opcode ∧ argField (encode i) = i.operand :=
  Laws.fields_append _ _

section
variable {w : CmdWord} {i : Instr}

theorem decode_ok_init : decode w = .ok .init ↔ (opField w).toNat = 0 := by
  unfold decode
  split <;> simp_all

theorem decode_ok_bit : decode w = .ok .bit ↔ (opField w).toNat = 2 := by
  unfold decode
  split <;> simp_all

theorem decode_ok_byte : decode w = .ok .byte ↔ (opField w).toNat = 4 := by
  unfold decode
  split <;> simp_all

/-- A word decodes to a command exactly when it has the command's opcode, and its operand where the
command has one. -/
theorem decode_ok : decode w = .ok i ↔ opField w = i.opcode ∧ withOperand i (argField w) = i := by
  rw [← BitVec.toNat_inj]
  cases i with
  | init => simpa [Instr.opcode, withOperand] using decode_ok_init
  | seed x => simpa [Instr.opcode, withOperand] using decode_ok_seed
  | bit => simpa [Instr.opcode, withOperand] using decode_ok_bit
  | bits n => simpa [Instr.opcode, withOperand] using decode_ok_bits
  | byte => simpa [Instr.opcode, withOperand] using decode_ok_byte

/-- A word with a command's opcode decodes to that command with the word's operand. -/
theorem decode_of_opField (h : opField w = i.opcode) : decode w = .ok (withOperand i (argField w)) := by
  simp [decode_ok, h]

end

/-- Settles O1: the fields of the command's word are its opcode and its operand. -/
theorem decodeEncodeRoundTrip : Obligations.DecodeEncodeRoundTrip := by
  intro i
  obtain ⟨hop, harg⟩ := encode_fields i
  rw [decode_of_opField hop, harg, withOperand_operand]

/-- Settles O2: the fields as quotient and remainder, and the words of each opcode. -/
theorem decodingReadsOpcodeAndOperand : Obligations.DecodingReadsOpcodeAndOperand := by
  intro w
  rw [← opField_toNat, ← argField_toNat]
  refine ⟨rfl, rfl, decode_ok_init, fun x => ?_, decode_ok_bit, fun n => ?_, decode_ok_byte, fun op => ?_⟩
  · rw [decode_ok_seed, BitVec.toNat_inj, eq_comm (a := x)]
  · rw [decode_ok_bits, BitVec.toNat_inj, eq_comm (a := n)]
  · rw [decode_error, DecodeError.reservedOpcode.injEq, BitVec.toNat_inj, and_comm]

/-- Settles O4: the eight words are evaluated. -/
theorem writtenOutWordsDecode : Obligations.WrittenOutWordsDecode := by
  unfold Obligations.WrittenOutWordsDecode
  decide

/-! ### The match and mask rows -/

/-- The row of a command: its opcode over the eight opcode bits (R33). -/
def rowOf (i : Instr) : OpcodeRow := ⟨i.mnemonic, i.opcode ++ (0 : Word), (0xFF : Opcode) ++ (0 : Word)⟩

/-- A word is its two fields put together (R32). -/
theorem append_fields (w : CmdWord) : opField w ++ argField w = w :=
  (BitVec.extractLsb'_append_extractLsb'_eq_extractLsb' rfl).trans BitVec.extractLsb'_eq_self

theorem rowOf_covers {i : Instr} {w : CmdWord} : (rowOf i).covers w = true ↔ opField w = i.opcode := by
  have hmask : w &&& ((0xFF : Opcode) ++ (0 : Word)) = opField w ++ (0 : Word) := by
    conv_lhs => rw [← append_fields w]
    rw [BitVec.and_append]
    exact congrArg₂ (· ++ ·) BitVec.and_allOnes BitVec.and_zero
  rw [OpcodeRow.covers, beq_iff_eq]
  exact (Eq.congr_left hmask).trans (BitVec.append_left_inj _)

/-- One command of each opcode, in the order of the table. -/
def oneOfEach : List Instr := [.init, .seed 0, .bit, .bits 0, .byte]

theorem withOperand_zero_mem_oneOfEach (i : Instr) : withOperand i 0 ∈ oneOfEach := by
  cases i <;> simp [oneOfEach, withOperand]

theorem opcodeRows_eq_map_rowOf : opcodeRows = oneOfEach.map rowOf := rfl

/-- Each opcode has a mnemonic of its own (R33). -/
theorem opcode_eq_of_mnemonic_eq {i j : Instr} (h : i.mnemonic = j.mnemonic) : i.opcode = j.opcode := by
  have hinj : ∀ k ∈ oneOfEach, ∀ l ∈ oneOfEach, k.mnemonic = l.mnemonic → k.opcode = l.opcode := by decide
  simpa using hinj _ (withOperand_zero_mem_oneOfEach i) _ (withOperand_zero_mem_oneOfEach j) (by simpa using h)

/-- Settles O3: a row covers the words of its opcode, and no two opcodes share a mnemonic. -/
theorem opcodeRowsSelectTheirCommands : Obligations.OpcodeRowsSelectTheirCommands := by
  intro w row hrow
  obtain ⟨i, -, rfl⟩ := List.mem_map.1 (opcodeRows_eq_map_rowOf ▸ hrow)
  rw [rowOf_covers]
  constructor
  · intro hop
    exact ⟨_, decode_of_opField hop, mnemonic_withOperand i _⟩
  · rintro ⟨j, hd, hm⟩
    exact (decode_ok.1 hd).1.trans (opcode_eq_of_mnemonic_eq hm)

/-! ### The text form -/

theorem encode_toNat (i : Instr) : (encode i).toNat = i.opcode.toNat * 2 ^ 32 + i.operand.toNat := by
  rw [encode, BitVec.toNat_append, ← Nat.shiftLeft_add_eq_or_of_lt i.operand.isLt, Nat.shiftLeft_eq]

/-- Settles O6: `encode_toNat` where the line has an operand; the other lines have one fixed word, or none. -/
theorem textLinesGiveTheirWords : Obligations.TextLinesGiveTheirWords :=
  ⟨rfl, fun x => ⟨_, rfl, by simp [encode_toNat, Instr.opcode, Instr.operand]⟩, rfl,
    fun n => ⟨_, rfl, by simp [encode_toNat, Instr.opcode, Instr.operand]⟩, rfl, rfl, rfl, rfl,
    .reset, rfl, rfl⟩

/-! ### The ignored operand field -/

section
variable {W : Nat} {i : Instr}

/-- Only the edge that accepts `SEED` selects the operand field (R38). -/
theorem edgeControls_sSel_ne_seed {p : Pins} {r : Regs W} {c : Controls W} (hd : decode p.cmdWord = .ok i)
    (hi : acceptSel i ≠ .seed) (hc : edgeControls p r = .ok c) : c.sSel ≠ .seed := by
  obtain ⟨-, rfl⟩ | ⟨-, -, rfl⟩ | ⟨-, -, -, j, hj, -, rfl⟩ | ⟨-, -, -, rfl⟩ := edgeControls_ok hc
  case inl => nofun
  case inr.inl => nofun
  case inr.inr.inl =>
    obtain rfl : i = j := Except.ok.inj (hd.symm.trans hj)
    exact hi
  case inr.inr.inr => nofun

/-- The controls depend on a word only through the command it decodes to. -/
theorem edgeControls_congr {rst valid : Bool} {w w' : CmdWord} (h : decode w = decode w') (r : Regs W) :
    edgeControls ⟨rst, valid, w⟩ r = edgeControls ⟨rst, valid, w'⟩ r := by
  simp only [edgeControls, acceptWord, commandOf, h]

/-- Two words of one command other than `SEED` have the same effect at every edge. -/
theorem clockEdge_congr {w w' : CmdWord} (hw : decode w = .ok i) (hw' : decode w' = .ok i)
    (hi : acceptSel i ≠ .seed) (s : State) (rst valid : Bool) :
    clockEdge ⟨rst, valid, w⟩ s = clockEdge ⟨rst, valid, w'⟩ s := by
  have hedge : s.regs.edge ⟨rst, valid, w⟩ = s.regs.edge ⟨rst, valid, w'⟩ := by
    unfold Regs.edge
    rw [edgeControls_congr (hw.trans hw'.symm)]
    cases hc : edgeControls ⟨rst, valid, w'⟩ s.regs with
    | error e => rfl
    | ok c =>
      have hsel : c.sSel ≠ .seed := edgeControls_sSel_ne_seed (p := ⟨rst, valid, w'⟩) hw' hi hc
      simp only [latch_arg_irrelevant hsel (argField w) (argField w')]
  simp only [clockEdge, hedge]

end

/-- Settles O5: every word of the opcode decodes to the command, and nothing else reads its operand field. -/
theorem unusedOperandFieldIsIgnored : Obligations.UnusedOperandFieldIsIgnored := by
  intro op i hmem
  obtain ⟨rfl, h0, hany, hsel⟩ : op = i.opcode ∧ i.operand = 0 ∧ (∀ x, withOperand i x = i) ∧
      acceptSel i ≠ .seed := by
    simp only [List.mem_cons, Prod.mk.injEq, List.not_mem_nil, or_false] at hmem
    obtain ⟨rfl, rfl⟩ | ⟨rfl, rfl⟩ | ⟨rfl, rfl⟩ := hmem <;> exact ⟨rfl, rfl, fun _ => rfl, nofun⟩
  have hd (a : Word) : decode (i.opcode ++ a) = .ok i :=
    decode_ok.2 ⟨(Laws.fields_append _ a).1, hany _⟩
  refine ⟨(encode_fields i).2.trans h0, fun a b => ⟨hd a, hd b, clockEdge_congr (hd a) (hd b) hsel, ?_⟩⟩
  intro s rest hl hc
  have hstep (c : Word) : step (s.setInputs (.command (i.opcode ++ c) :: rest)) = exec i (s.setInputs rest) :=
    step_command_idle (s := s.setInputs (.command (i.opcode ++ c) :: rest)) hl hc rfl (hd c)
  rw [hstep a, hstep b]

/-! ### The multiplexers -/

/-- Settles O30: one law for each select. -/
theorem multiplexersSelectTheirInputs : Obligations.MultiplexersSelectTheirInputs :=
  fun _ S arg ACC => ⟨sMux_hold S arg, sMux_default S arg, sMux_seed S arg, sMux_step S arg, aMux_hold S ACC,
    aMux_clear S ACC, aMux_shift S ACC⟩

end Sys2Proof.Machine
end

section
/-! SUPPORT. The construction commands (R40, R41, R43), and what they need of every command: it is the edge
that accepts it followed by the extraction of its bits (R76), so the width and `S` alone decide its effect. -/

namespace Sys2Proof.Machine

/-! ### The whole effect of a command -/

/-- A completed command shows its result and leaves the block ready (R14, R74). -/
@[simp] theorem outputs_completed {W : Nat} (S : Word) (ACC : BitVec W) :
    (completed S ACC).outputs = { cmdReady := true, rspValid := true, rspData := ACC } := by
  simp [Regs.outputs]

@[simp] theorem response_completed {W : Nat} (S : Word) (ACC : BitVec W) :
    (completed S ACC).response = [ACC.toNat] := by
  simp [Regs.response]

/-- The result of `BIT` is its bit as the number 0 or 1, at every width (R51). -/
theorem zextBit_toNat {W : Nat} (hW : 0 < W) (b : Bool) : (zextBit W b).toNat = b.toNat := by
  rw [BitVec.toNat_setWidth, BitVec.toNat_ofBool]
  exact Nat.mod_eq_of_lt ((Bool.toNat_lt b).trans_le (Nat.le_self_pow hW.ne' 2))

/-- The first bit shifted into a cleared accumulator is all it holds. -/
theorem shiftIn_zero {W : Nat} (b : Bool) : shiftIn (0 : BitVec W) b = zextBit W b := by
  simp [shiftIn]

/-- `SEED` stores a nonzero seed as given (R41). -/
theorem exec_seed {x : Word} (s : State) (hx : x ≠ 0) :
    exec (.seed x) s = .next (s.setRegs (completed x 0)) := by
  simp only [exec, execSeed, seedOperand_eq, if_neg hx]

/-- `BIT` makes one transition, and its result is bit 0 of the new state (R51). -/
theorem exec_bit (s : State) : exec .bit s =
    .next (s.setRegs (completed (step32 s.regs.S) (zextBit _ (outBit (step32 s.regs.S))))) := rfl

/-- The registers when an admitted command has completed: the edge that accepts it, then the extraction of
its bits from the state that edge leaves (R75, R76). -/
def regsAfter {W : Nat} (i : Instr) (r : Regs W) : Regs W :=
  extraction (bitCount i) (latch (acceptControls W i) i.operand r)

theorem exec_of_wellFormed {i : Instr} {s : State} (h : i.wellFormed s.width.W = true) :
    exec i s = .next (s.setRegs (regsAfter i s.regs)) := by
  cases i with
  | init => rfl
  | byte => rfl
  | seed x =>
    have hx : x ≠ 0 := by simpa [Instr.wellFormed, seedOk] using h
    exact exec_seed s hx
  | bit =>
    rw [exec_bit, ← shiftIn_zero]
    rfl
  | bits n =>
    have hn : n.toNat ≤ s.width.W := by simpa [Instr.wellFormed, countOk] using h
    simp only [exec, execBits, countOperand_eq, if_pos hn]
    rfl

/-- A command completes exactly when it meets its precondition, with the registers `regsAfter`. -/
theorem exec_ok {i : Instr} {s t : State} :
    exec i s = .next t ↔ i.wellFormed s.width.W = true ∧ t = s.setRegs (regsAfter i s.regs) := by
  constructor
  · intro h
    have hwf := ((commandCompletesOrIsRefused i s).1).1 ⟨t, h⟩
    exact ⟨hwf, by simpa [exec_of_wellFormed hwf] using h.symm⟩
  · rintro ⟨hwf, rfl⟩
    exact exec_of_wellFormed hwf

/-- Of the registers before a command only `S` is read. -/
theorem regsAfter_congr {W : Nat} {i : Instr} {r r' : Regs W} (h : r.S = r'.S) :
    regsAfter i r = regsAfter i r' := by
  simp [regsAfter, extraction, h]

/-! ### What one command or a run of commands depends on -/

/-- Two blocks of one width with one generator state; accumulator, counter, reset mark and host are free. -/
def SameGenerator (s t : State) : Prop := s.width = t.width ∧ s.regs.S = t.regs.S

section
variable {s t u : State}

/-- A run whose first command completes shows that command's response first (R84). -/
theorem runCommands_cons {i : Instr} {P : List Instr} {rs : List Nat} (h : exec i s = .next t)
    (hrun : runCommands P t = .next (u, rs)) :
    runCommands (i :: P) s = .next (u, t.regs.response ++ rs) := by
  rw [runCommands, h, andThen_of_next hrun]

/-- On two such blocks a command completes alike: with one response and one generator state after it. -/
theorem SameGenerator.exec_next {i : Instr} (hst : SameGenerator s t) (h : exec i s = .next u) :
    ∃ v, exec i t = .next v ∧ SameGenerator u v ∧ u.regs.response = v.regs.response := by
  obtain ⟨w, r, l, ins⟩ := s
  obtain ⟨w', r', l', ins'⟩ := t
  obtain ⟨hw, hS⟩ := hst
  obtain rfl : w = w' := hw
  obtain ⟨hwf, rfl⟩ := exec_ok.1 h
  have hregs : regsAfter i r = regsAfter i r' := regsAfter_congr hS
  exact ⟨_, exec_ok.2 ⟨hwf, rfl⟩, ⟨rfl, congrArg Regs.S hregs⟩, congrArg Regs.response hregs⟩

/-- On two such blocks a command is refused alike. -/
theorem SameGenerator.exec_refused {i : Instr} {r : Refusal} (hst : SameGenerator s t)
    (h : exec i s = .refused r) : exec i t = .refused r := by
  rw [Machine.exec_refused] at h ⊢
  exact hst.1 ▸ h

/-- On two such blocks a run of commands ends alike, with the same responses. -/
theorem SameGenerator.runCommands_next {P : List Instr} {rs : List Nat} (hst : SameGenerator s t)
    (h : runCommands P s = .next (u, rs)) :
    ∃ v, runCommands P t = .next (v, rs) ∧ SameGenerator u v := by
  induction P generalizing s t rs with
  | nil =>
    cases h
    exact ⟨t, rfl, hst⟩
  | cons i P ih =>
    obtain ⟨s', rs', hs, hrun, rfl⟩ := andThen_next h
    obtain ⟨t', ht, hst', hresp⟩ := hst.exec_next hs
    obtain ⟨v, hrun', huv⟩ := ih hst' hrun
    exact ⟨v, hresp ▸ runCommands_cons ht hrun', huv⟩

/-- On two such blocks a run of commands is refused alike. -/
theorem SameGenerator.runCommands_refused {P : List Instr} {r : Refusal} (hst : SameGenerator s t)
    (h : runCommands P s = .refused r) : runCommands P t = .refused r := by
  induction P generalizing s t with
  | nil => cases h
  | cons i P ih =>
    rcases andThen_refused.1 h with hs | ⟨s', hs, hrun⟩
    · exact andThen_refused.2 (.inl (hst.exec_refused hs))
    · obtain ⟨t', ht, hst', -⟩ := hst.exec_next hs
      exact andThen_refused.2 (.inr ⟨t', ht, ih hst' hrun⟩)

end

/-! ### A command presented while another is in flight -/

/-- At an edge with a command in flight the block makes a micro-step, whatever is presented (R24, R75). -/
theorem clockEdge_microStep {p : Pins} {s : State} (hl : s.live = true) (hr : p.rst = false)
    (hc : s.regs.CNT ≠ 0) :
    clockEdge p s = .next (s.setRegs (latch (microStepControls s.regs) 0 s.regs)) := by
  rw [clockEdge_live hl, edgeControls_micro hr ((busy_eq_true _).2 hc),
    ← latch_arg_irrelevant (by nofun) (argField p.cmdWord)]

/-! ### The construction commands -/

/-- `SEED 1` is `INIT` (R41). -/
theorem exec_seed_one (s : State) : exec (.seed 1) s = exec .init s :=
  exec_seed s (by decide)

/-- Settles O14: `SEED x` leaves a block with the generator state `x`, and runs of two such blocks go side
by side. -/
theorem constructionChangesInitialStateOnly : Obligations.ConstructionChangesInitialStateOnly := by
  refine ⟨fun P x s t _ hx hw _ hS => ?_, fun P s _ => ?_, fun x s hx => ?_⟩
  · have hst : SameGenerator t (s.setRegs (completed x 0)) := ⟨hw, hS⟩
    constructor
    · intro u rs h
      obtain ⟨v, hrun, -, hv⟩ := hst.runCommands_next h
      exact ⟨v, runCommands_cons (exec_seed s hx) hrun, hv.symm⟩
    · intro r h
      exact andThen_refused.2 (.inr ⟨_, exec_seed s hx, hst.runCommands_refused h⟩)
  · rw [runCommands, runCommands, exec_seed_one]
  · have hW : 0 < s.width.W := Nat.lt_of_lt_of_le (by decide) s.width.ok
    rw [← zextBit_toNat hW ((step32 x).getLsbD 0)]
    exact ⟨_, runCommands_cons (exec_seed s hx) (runCommands_cons (P := []) (exec_bit _) rfl)⟩

/-- Settles O12: the completed registers, and the micro-step that a busy block makes instead. -/
theorem initConstructsDefaultSeed : Obligations.InitConstructsDefaultSeed := by
  refine ⟨fun a => decode_ok.2 ⟨(Laws.fields_append _ a).1, rfl⟩,
    fun s => ⟨_, rfl, rfl, outputs_completed DEFAULT_SEED 0, rfl⟩, fun s w hl hc _ => ?_⟩
  rw [clockEdge_microStep hl rfl hc, clockEdge_microStep hl rfl hc]

/-- Settles O13: the seed is stored as given, and only a zero seed is refused. -/
theorem seedConstructsGivenSeed : Obligations.SeedConstructsGivenSeed := by
  refine ⟨fun a => decode_ok.2 ?_, fun s x hx => ⟨_, rfl, exec_seed s hx, outputs_completed x 0⟩,
    exec_seed_one, fun s => exec_refused.2 (refusedFor_seed.2 ⟨rfl, rfl⟩)⟩
  obtain ⟨hop, harg⟩ := Laws.fields_append 0x01 a
  exact ⟨hop, congrArg Instr.seed harg⟩

end Sys2Proof.Machine
end

section
/-! SUPPORT. The transition as a linear bijection (R47): each of its three lines is linear, and is undone by the
shifts of its result, whose terms cancel in pairs. With it R45, the transition line by line. -/

namespace Sys2Proof.Machine

/-- Settles O7: the three lines are the model's own, and the values are computed. -/
theorem transitionIsThreeSequentialXors : Obligations.TransitionIsThreeSequentialXors :=
  ⟨fun x => ⟨mixA x, mixB (mixA x), rfl, rfl, rfl⟩, by decide⟩

section
variable {w : Nat} (x a b c : BitVec w)

theorem xor_xor_telescope : a ^^^ b ^^^ (b ^^^ c) = a ^^^ c := by
  rw [BitVec.xor_assoc, ← BitVec.xor_assoc b, BitVec.xor_self, BitVec.zero_xor]

/-- Xor with a shift to the left is linear. -/
theorem xor_shiftLeft_xor (k : Nat) :
    (a ^^^ b) ^^^ ((a ^^^ b) <<< k) = (a ^^^ (a <<< k)) ^^^ (b ^^^ (b <<< k)) := by
  rw [BitVec.shiftLeft_xor_distrib]
  ac_rfl

/-- Xor with a shift to the right is linear. -/
theorem xor_ushiftRight_xor (k : Nat) :
    (a ^^^ b) ^^^ ((a ^^^ b) >>> k) = (a ^^^ (a >>> k)) ^^^ (b ^^^ (b >>> k)) := by
  rw [BitVec.ushiftRight_xor_distrib]
  ac_rfl

end

/-- The transition is linear over the two-element field (R47). -/
theorem step32_xor (a b : Word) : step32 (a ^^^ b) = step32 a ^^^ step32 b := by
  have hA : mixA (a ^^^ b) = mixA a ^^^ mixA b := xor_shiftLeft_xor a b SH_A
  have hB (u v : Word) : mixB (u ^^^ v) = mixB u ^^^ mixB v := xor_ushiftRight_xor u v SH_B
  have hC (u v : Word) : mixC (u ^^^ v) = mixC u ^^^ mixC v := xor_shiftLeft_xor u v SH_C
  rw [step32, hA, hB, hC, ← step32, ← step32]

section
variable (x : Word)

theorem mixA_undo : mixA x ^^^ (mixA x <<< 13) ^^^ (mixA x <<< 26) = x := by
  simp [mixA, SH_A, BitVec.shiftLeft_xor_distrib, ← BitVec.shiftLeft_add, xor_xor_telescope]

theorem mixB_undo : mixB x ^^^ (mixB x >>> 17) = x := by
  simp [mixB, SH_B, BitVec.ushiftRight_xor_distrib, ← BitVec.shiftRight_add, BitVec.ushiftRight_eq_zero]

theorem mixC_undo : mixC x ^^^ (mixC x <<< 5) ^^^ (mixC x <<< 10) ^^^ (mixC x <<< 15) ^^^ (mixC x <<< 20) ^^^
    (mixC x <<< 25) ^^^ (mixC x <<< 30) = x := by
  simp [mixC, SH_C, BitVec.shiftLeft_xor_distrib, ← BitVec.shiftLeft_add, xor_xor_telescope]

@[simp] theorem unstep32_step32 : unstep32 (step32 x) = x := by
  rw [unstep32, step32, mixC_undo, mixB_undo, mixA_undo]

end

/-- The transition is a bijection (R47): on a finite set a left inverse suffices. -/
theorem step32_bijective : Function.Bijective step32 :=
  Finite.injective_iff_bijective.1 (Function.LeftInverse.injective unstep32_step32)

/-- Settles O8: the inverse formula undoes the three lines on the left, and so on both sides. -/
theorem transitionIsLinearBijection : Obligations.TransitionIsLinearBijection :=
  ⟨step32_bijective, by decide, fun _ => step32_ne_zero, unstep32_step32,
    Function.LeftInverse.rightInverse_of_surjective unstep32_step32 step32_bijective.2, step32_xor⟩

end Sys2Proof.Machine
end

section
/-! SUPPORT. Matrices over the two-element field as lists of columns, each column and each vector a number whose
binary digits are its entries: the product with a vector, squaring, and powers by repeated squaring. -/

namespace Sys2Proof.Machine

/-- The product of a matrix with a vector: the xor of the columns that the vector's digits select. -/
def matVec : List Nat → Nat → Nat
  | [], _ => 0
  | c :: M, n => n % 2 * c ^^^ matVec M (n / 2)

/-- The square of a matrix: its own product with each of its columns. -/
def matSquare (M : List Nat) : List Nat := M.map (matVec M)

/-- `M ^ n` applied to a vector, by the binary digits of `n`; the first argument bounds their number. -/
def matPowVec : Nat → List Nat → Nat → Nat → Nat
  | 0, _, _, x => x
  | k + 1, M, n, x => matPowVec k (matSquare M) (n / 2) (if n % 2 = 1 then matVec M x else x)

theorem matVec_xor (M : List Nat) (a b : Nat) : matVec M (a ^^^ b) = matVec M a ^^^ matVec M b := by
  induction M generalizing a b with
  | nil => exact (Nat.xor_self 0).symm
  | cons c M ih =>
    have hdigit : (a ^^^ b) % 2 * c = a % 2 * c ^^^ b % 2 * c := by
      rw [Nat.xor_mod_two_eq, Nat.add_mod]
      rcases Nat.mod_two_eq_zero_or_one a with ha | ha <;>
        rcases Nat.mod_two_eq_zero_or_one b with hb | hb <;> simp [ha, hb]
    rw [matVec, matVec, matVec, hdigit, Nat.xor_div_two, ih]
    ac_rfl

theorem matVec_zero (M : List Nat) : matVec M 0 = 0 := by
  simpa using matVec_xor M 0 0

/-- The columns of a product are the products with the columns. -/
theorem matVec_map (L M : List Nat) (n : Nat) : matVec (M.map (matVec L)) n = matVec L (matVec M n) := by
  induction M generalizing n with
  | nil => exact (matVec_zero L).symm
  | cons c M ih =>
    have hdigit : n % 2 * matVec L c = matVec L (n % 2 * c) := by
      rcases Nat.mod_two_eq_zero_or_one n with hn | hn <;> simp [hn, matVec_zero]
    rw [List.map_cons, matVec, matVec, matVec_xor, ih, hdigit]

theorem matVec_matSquare (M : List Nat) : matVec (matSquare M) = (matVec M)^[2] :=
  funext (matVec_map M M)

/-- Repeated squaring computes the power. -/
theorem matPowVec_eq_iterate {k n : Nat} (M : List Nat) (x : Nat) (hn : n < 2 ^ k) :
    matPowVec k M n x = (matVec M)^[n] x := by
  induction k generalizing M n x with
  | zero => rw [Nat.lt_one_iff.1 hn, matPowVec, Function.iterate_zero_apply]
  | succ k ih =>
    rw [matPowVec, ih _ _ (by omega), matVec_matSquare, ← Function.iterate_mul]
    rcases Nat.mod_two_eq_zero_or_one n with h | h
    · rw [if_neg (by omega), show 2 * (n / 2) = n by omega]
    · rw [if_pos h, ← Function.iterate_succ_apply, show (2 * (n / 2)).succ = n by omega]

/-! ### The matrix of a linear map -/

/-- The first `k` columns of a linear map: its values at `1`, at `1 <<< 1` and so on. -/
def columns {w : Nat} (f : BitVec w → BitVec w) : Nat → List Nat
  | 0 => []
  | k + 1 => (f 1).toNat :: columns (fun x => f (x <<< 1)) k

/-- A vector is its lowest digit and the shift of the others. -/
theorem ofNat_eq_xor_shiftLeft (w n : Nat) :
    BitVec.ofNat w n = BitVec.ofNat w (n % 2) ^^^ BitVec.ofNat w (n / 2) <<< 1 := by
  refine BitVec.eq_of_getLsbD_eq fun i hi => ?_
  simp only [BitVec.getLsbD_xor, BitVec.getLsbD_shiftLeft, BitVec.getLsbD_ofNat]
  cases i with
  | zero => simp
  | succ i => simp [Nat.testBit_succ, hi, Nat.lt_of_succ_lt hi]

section
variable {w : Nat} {f : BitVec w → BitVec w} (hf : ∀ a b, f (a ^^^ b) = f a ^^^ f b)
include hf

theorem linear_zero : f 0#w = 0#w := by
  simpa using hf 0 0

theorem matVec_columns {k n : Nat} (hn : n < 2 ^ k) : matVec (columns f k) n = (f (BitVec.ofNat w n)).toNat := by
  induction k generalizing f n with
  | zero => simp [Nat.lt_one_iff.1 hn, columns, matVec, linear_zero hf]
  | succ k ih =>
    have hdigit : n % 2 * (f 1).toNat = (f (BitVec.ofNat w (n % 2))).toNat := by
      rcases Nat.mod_two_eq_zero_or_one n with h | h <;> simp [h, linear_zero hf]
    have hrest := ih (f := fun x => f (x <<< 1)) (fun a b => by rw [BitVec.shiftLeft_xor_distrib, hf])
      (n := n / 2) (by omega)
    rw [columns, matVec, hdigit, hrest, ofNat_eq_xor_shiftLeft w n, hf, BitVec.toNat_xor]

/-- The iterates of a linear map are the powers of its matrix. -/
theorem iterate_toNat_eq_matPowVec {k n : Nat} (hn : n < 2 ^ k) (x : BitVec w) :
    (f^[n] x).toNat = matPowVec k (columns f w) n x.toNat := by
  have hsemi : Function.Semiconj BitVec.toNat f (matVec (columns f w)) := fun y => by
    rw [matVec_columns hf y.isLt, BitVec.ofNat_toNat, BitVec.setWidth_eq]
  rw [matPowVec_eq_iterate _ _ hn, (hsemi.iterate_right n).eq]

end

end Sys2Proof.Machine
end

section
/-! SUPPORT. The period of the transition (R48). The period of the state 1 is `2^32 - 1`: that many transitions
return it, and no `(2^32 - 1) / p` transitions do, for `p` a prime factor. So the orbit of 1 has as many states as
there are nonzero words, and is the one cycle that holds them all. -/

namespace Sys2Proof.Machine

open Function (minimalPeriod IsPeriodicPt)

/-- A period none of whose quotients by a prime factor is a period is the least one. -/
theorem minimalPeriod_eq_of_prime_quotients {α : Type} {f : α → α} {x : α} {n : Nat} (hn : n ≠ 0)
    (h : IsPeriodicPt f n x) (hp : ∀ p ∈ n.primeFactorsList, ¬ IsPeriodicPt f (n / p) x) :
    minimalPeriod f x = n := by
  obtain ⟨q, hq⟩ := h.minimalPeriod_dvd
  by_contra hne
  have hq1 : q ≠ 1 := by
    rintro rfl
    exact hne (by rw [hq, Nat.mul_one])
  obtain ⟨p, hprime, m, rfl⟩ := Nat.exists_prime_and_dvd hq1
  have hquot : n / p = minimalPeriod f x * m :=
    Nat.div_eq_of_eq_mul_right hprime.pos (by rw [hq]; ac_rfl)
  refine hp p ((Nat.mem_primeFactorsList hn).2 ⟨hprime, minimalPeriod f x * m, by rw [hq]; ac_rfl⟩) ?_
  rw [hquot]
  exact (Function.isPeriodicPt_minimalPeriod f x).mul_const m

section
variable {w : Nat} {f : BitVec w → BitVec w} {x y : BitVec w}

/-- An orbit of nonzero words with as many members as there are nonzero words reaches each of them. -/
theorem exists_iterate_eq_of_minimalPeriod (hf : ∀ k, f^[k] x ≠ 0) (hx : minimalPeriod f x = 2 ^ w - 1)
    (hy : y ≠ 0) : ∃ k < 2 ^ w - 1, f^[k] x = y := by
  have hpos {z : BitVec w} (hz : z ≠ 0) : z.toNat ∈ Finset.Ioo 0 (2 ^ w) :=
    Finset.mem_Ioo.2 ⟨Nat.pos_of_ne_zero fun h => hz (BitVec.eq_of_toNat_eq (by simpa using h)), z.isLt⟩
  have hinj : Set.InjOn (fun k => (f^[k] x).toNat) (Finset.range (2 ^ w - 1)) := by
    rw [Finset.coe_range, ← hx]
    exact (BitVec.toNat_injective.injOn).comp Function.iterate_injOn_Iio_minimalPeriod (Set.mapsTo_univ _ _)
  obtain ⟨k, hk, hky⟩ := Finset.surjOn_of_injOn_of_card_le _ (fun k _ => hpos (hf k)) hinj (by simp) (hpos hy)
  exact ⟨k, Finset.mem_range.1 hk, BitVec.eq_of_toNat_eq hky⟩

end

/-- The powers of the transition's matrix that R48 names, applied to 1: the power `2^32 - 1` returns it, and no
quotient of this exponent by a prime factor does. The kernel evaluates the matrices' 31 squarings. -/
theorem matPowVec_step32_one :
    matPowVec 32 (columns step32 32) (2 ^ 32 - 1) 1 = 1 ∧
      ∀ p ∈ [3, 5, 17, 257, 65537], matPowVec 32 (columns step32 32) ((2 ^ 32 - 1) / p) 1 ≠ 1 := by
  decide +kernel

theorem isPeriodicPt_step32_one {n : Nat} (hn : n < 2 ^ 32) :
    IsPeriodicPt step32 n 1 ↔ matPowVec 32 (columns step32 32) n 1 = 1 := by
  rw [← show (1 : Word).toNat = 1 from rfl, ← iterate_toNat_eq_matPowVec step32_xor hn]
  exact BitVec.toNat_inj.symm

theorem minimalPeriod_step32_one : minimalPeriod step32 1 = 2 ^ 32 - 1 := by
  obtain ⟨hreturn, hquot⟩ := matPowVec_step32_one
  have hfactors : (2 ^ 32 - 1).primeFactorsList = [3, 5, 17, 257, 65537] := by simp
  refine minimalPeriod_eq_of_prime_quotients (by decide) ((isPeriodicPt_step32_one (by decide)).2 hreturn)
    fun p hp hper => ?_
  rw [hfactors] at hp
  exact hquot p hp ((isPeriodicPt_step32_one (Nat.lt_of_le_of_lt (Nat.div_le_self _ p) (by decide))).1 hper)

/-- Every nonzero state is on the orbit of 1, and so has its period. -/
theorem minimalPeriod_step32 {x : Word} (hx : x ≠ 0) : minimalPeriod step32 x = 2 ^ 32 - 1 := by
  obtain ⟨k, -, rfl⟩ := exists_iterate_eq_of_minimalPeriod
    (fun k => iterate_step32_ne_zero k (by decide)) minimalPeriod_step32_one hx
  rw [Function.minimalPeriod_apply_iterate, minimalPeriod_step32_one]
  exact Function.minimalPeriod_pos_iff_mem_periodicPts.1 (by rw [minimalPeriod_step32_one]; decide)

/-- Settles O9: a nonzero state by its period, and 0 as a fixed point. -/
theorem transitionPeriodReturns : Obligations.TransitionPeriodReturns := by
  intro x
  by_cases hx : x = 0
  · rw [hx]
    exact Function.iterate_fixed rfl _
  · rw [← minimalPeriod_step32 hx]
    exact Function.iterate_minimalPeriod

/-- Settles O10: no return before the least period, and an orbit of that length holds every nonzero state. -/
theorem nonzeroStatesFormOneCycle : Obligations.NonzeroStatesFormOneCycle := by
  intro x hx
  have hperiod := minimalPeriod_step32 hx
  refine ⟨fun k hk hlt => ?_, fun y hy => ?_⟩
  · exact Function.not_isPeriodicPt_of_pos_of_lt_minimalPeriod hk.ne' (by rwa [hperiod])
  · exact exists_iterate_eq_of_minimalPeriod (fun k => iterate_step32_ne_zero k hx) hperiod hy

end Sys2Proof.Machine
end

section
/-! SUPPORT. The bit stream of a state: cut in two, as the bits of a number, and as the digits of single bits
(R49, R52, R56). -/

namespace Sys2Proof.Machine

section
variable (m n : Nat) (x : Word)

/-- A stream goes on as the stream of the state its first bits lead to. -/
theorem bitStream_add : bitStream (m + n) x = bitStream m x ++ bitStream n (step32^[m] x) := by
  have hbit (k : Nat) : outBit (step32^[m + k + 1] x) = outBit (step32^[k + 1] (step32^[m] x)) := by
    rw [← Function.iterate_add_apply, Nat.add_assoc, Nat.add_comm m]
  simp only [bitStream, List.range_add, List.map_append, List.map_map, Function.comp_def, hbit]

theorem streamNumber_add :
    streamNumber (m + n) x = streamNumber m x * 2 ^ n + streamNumber n (step32^[m] x) := by
  induction m generalizing x with
  | zero => simp
  | succ m ih =>
    rw [Nat.add_right_comm, streamNumber_succ, streamNumber_succ, ih, Function.iterate_succ_apply]
    ring

theorem streamNumber_one : streamNumber 1 x = (outBit (step32 x)).toNat := by
  simp [streamNumber_succ]

end

section
variable {n k : Nat} (x : Word)

/-- The last bit extracted has weight 1. -/
theorem streamNumber_succ_testBit_zero :
    (streamNumber (k + 1) x).testBit 0 = outBit (step32^[k + 1] x) := by
  rw [streamNumber_add, streamNumber_one, Function.iterate_succ_apply']
  cases outBit (step32 (step32^[k] x)) <;> simp [Nat.testBit_zero]

/-- The first bit extracted is the highest (R26, R55): the `k + 1` first ones stand above the others. -/
theorem streamNumber_testBit (hk : k < n) :
    (streamNumber n x).testBit (n - 1 - k) = outBit (step32^[k + 1] x) := by
  obtain ⟨j, rfl⟩ := Nat.exists_eq_add_of_lt hk
  rw [show k + j + 1 - 1 - k = j by omega, Nat.add_right_comm, streamNumber_add, Nat.mul_comm,
    Nat.testBit_two_pow_mul_add _ (streamNumber_lt j _), if_neg (Nat.lt_irrefl j), Nat.sub_self,
    streamNumber_succ_testBit_zero]

theorem bitsOfResult_streamNumber (n : Nat) : bitsOfResult n (streamNumber n x) = bitStream n x :=
  List.map_congr_left fun _ hk => streamNumber_testBit x (List.mem_range.1 hk)

end

/-! ### The results of a list of extraction commands -/

/-- The results of the commands run one after the other from the generator state `x`: each is the number of the
next bits of the stream. -/
def resultsFrom : List Instr → Word → List Nat
  | [], _ => []
  | i :: P, x => streamNumber (bitCount i) x :: resultsFrom P (step32^[bitCount i] x)

theorem resultsFrom_length (P : List Instr) (x : Word) : (resultsFrom P x).length = P.length := by
  induction P generalizing x with
  | nil => rfl
  | cons i P ih => rw [resultsFrom, List.length_cons, List.length_cons, ih]

/-- However the stream is cut into results, their bits put together are its first bits. -/
theorem bitsOfResults_eq_bitStream (P : List Instr) (x : Word) :
    (List.zipWith bitsOfResult (P.map bitCount) (resultsFrom P x)).flatten =
      bitStream (P.map bitCount).sum x := by
  induction P generalizing x with
  | nil => rfl
  | cons i P ih =>
    simp only [resultsFrom, List.map_cons, List.zipWith_cons_cons, List.flatten_cons, List.sum_cons]
    rw [bitsOfResult_streamNumber, ih, bitStream_add]

/-- The number of the first `n` bits has the results of `n` times `BIT` as its digits. -/
theorem ofDigits_singleBits (n : Nat) (x : Word) :
    Nat.ofDigits 2 (resultsFrom (List.replicate n .bit) x).reverse = streamNumber n x := by
  induction n generalizing x with
  | zero => rfl
  | succ n ih =>
    simp only [List.replicate_succ, resultsFrom, bitCount, Function.iterate_one, List.reverse_cons,
      Nat.ofDigits_append, ih, List.length_reverse, resultsFrom_length, List.length_replicate,
      Nat.ofDigits_singleton, streamNumber_one]
    rw [streamNumber_succ]
    ring

end Sys2Proof.Machine
end

section
/-! SUPPORT. The extraction commands: each admitted one draws its number of bits from the stream of `S`, and
that number alone decides its effect (R51, R52, R53, R56, R57). -/

namespace Sys2Proof.Machine

/-- The registers when `n` bits have been drawn from the generator state `x`. -/
def drawn (W n : Nat) (x : Word) : Regs W :=
  completed (step32^[n] x) (BitVec.ofNat W (streamNumber n x))

@[simp] theorem drawn_S (W n : Nat) (x : Word) : (drawn W n x).S = step32^[n] x := rfl

section
variable {W n : Nat} (x : Word)

/-- No bit of a result of at most `W` bits is lost (R55). -/
theorem drawn_ACC_toNat (hn : n ≤ W) : (drawn W n x).ACC.toNat = streamNumber n x :=
  (BitVec.toNat_ofNat ..).trans
    (Nat.mod_eq_of_lt ((streamNumber_lt n x).trans_le (Nat.pow_le_pow_right (by decide) hn)))

theorem drawn_response (hn : n ≤ W) : (drawn W n x).response = [streamNumber n x] := by
  rw [← drawn_ACC_toNat x hn]
  exact response_completed _ _

theorem drawn_ACC_lt (hn : n ≤ W) : (drawn W n x).ACC.toNat < 2 ^ n :=
  (drawn_ACC_toNat x hn).trans_lt (streamNumber_lt n x)

theorem drawn_ACC_getLsbD {k : Nat} (hn : n ≤ W) (hk : k < n) :
    (drawn W n x).ACC.getLsbD (n - 1 - k) = outBit (step32^[k + 1] x) := by
  rw [← BitVec.testBit_toNat, drawn_ACC_toNat x hn, streamNumber_testBit x hk]

theorem extraction_eq_drawn (hW : 0 < W) (r : Regs W) : extraction n r = drawn W n r.S := by
  have hacc : (extract n r.S (0 : BitVec W)).2 = BitVec.ofNat W (streamNumber n r.S) :=
    BitVec.eq_of_toNat_eq (by simp [extract_snd hW])
  rw [extraction, extract_fst, hacc, drawn]

end

section
variable {s : State} {i : Instr}

/-- An admitted extraction command draws its bits from the stream of `S`. -/
theorem exec_extraction (hi : i.isExtraction = true) (hwf : i.wellFormed s.width.W = true) :
    exec i s = .next (s.setRegs (drawn s.width.W (bitCount i) s.regs.S)) := by
  have hW : 0 < s.width.W := Nat.lt_of_lt_of_le (by decide) s.width.ok
  rw [exec_of_wellFormed hwf, regsAfter, extraction_eq_drawn hW]
  cases i with
  | init | seed => cases hi
  | bit | bits | byte => rfl

theorem exec_bit_eq_drawn (s : State) : exec .bit s = .next (s.setRegs (drawn s.width.W 1 s.regs.S)) :=
  exec_extraction rfl rfl

theorem exec_byte_eq_drawn (s : State) : exec .byte s = .next (s.setRegs (drawn s.width.W 8 s.regs.S)) :=
  exec_extraction rfl rfl

theorem exec_bits_eq_drawn {n : Word} {k : Nat} (hn : n.toNat = k) (hk : k ≤ s.width.W) :
    exec (.bits n) s = .next (s.setRegs (drawn s.width.W k s.regs.S)) := by
  subst hn
  exact exec_extraction rfl (decide_eq_true hk)

/-- `BITS 1` is `BIT` (R51). -/
theorem exec_bits_one (s : State) : exec (.bits 1) s = exec .bit s :=
  (exec_bits_eq_drawn (k := 1) rfl (Nat.le_trans (by decide) s.width.ok)).trans (exec_bit_eq_drawn s).symm

/-- `BITS 8` is `BYTE` (R53). -/
theorem exec_bits_eight (s : State) : exec (.bits 8) s = exec .byte s :=
  (exec_bits_eq_drawn (k := 8) rfl s.width.ok).trans (exec_byte_eq_drawn s).symm

/-- An admitted extraction command completes with one response, and moves on in the stream by its bits. -/
theorem exec_extraction_next (hi : i.isExtraction = true) (hwf : i.wellFormed s.width.W = true) :
    ∃ t, exec i s = .next t ∧ t.width = s.width ∧ t.regs.S = step32^[bitCount i] s.regs.S ∧
      t.regs.response = [streamNumber (bitCount i) s.regs.S] :=
  ⟨_, exec_extraction hi hwf, rfl, rfl, drawn_response s.regs.S (bitCount_le s.width.ok hwf)⟩

/-- A run of admitted extraction commands draws one bit stream. -/
theorem runCommands_extractions {P : List Instr}
    (h : ∀ i ∈ P, i.isExtraction = true ∧ i.wellFormed s.width.W = true) :
    ∃ t, runCommands P s = .next (t, resultsFrom P s.regs.S) ∧
      t.regs.S = step32^[(P.map bitCount).sum] s.regs.S := by
  induction P generalizing s with
  | nil => exact ⟨s, rfl, rfl⟩
  | cons i P ih =>
    obtain ⟨⟨hi, hwf⟩, hP⟩ := List.forall_mem_cons.1 h
    obtain ⟨t, hexec, hw, hSt, hresp⟩ := exec_extraction_next hi hwf
    obtain ⟨u, hrun, hSu⟩ := ih (s := t) (by rwa [hw])
    refine ⟨u, ?_, ?_⟩
    · rw [runCommands_cons hexec hrun, hresp, hSt, resultsFrom, List.singleton_append]
    · rw [hSu, hSt, List.map_cons, List.sum_cons, Nat.add_comm, Function.iterate_add_apply]

end

/-- Settles O22: the run draws the stream command by command, and the results' bits are its cut. -/
theorem bitStreamDoesNotDependOnTheCut : Obligations.BitStreamDoesNotDependOnTheCut := by
  intro P s h
  obtain ⟨t, hrun, hS⟩ := runCommands_extractions h
  exact ⟨t, _, hrun, resultsFrom_length P _, hS, bitsOfResults_eq_bitStream P _⟩

/-- Settles O21: the run of `n` times `BIT`, and its results as digits. -/
theorem singleBitsMakeUpBits : Obligations.SingleBitsMakeUpBits := by
  intro s n hn
  obtain ⟨t, hrun, hS⟩ := runCommands_extractions (s := s) (P := List.replicate n.toNat .bit)
    fun i hi => by rw [List.eq_of_mem_replicate hi]; exact ⟨rfl, rfl⟩
  refine ⟨t, _, _, hrun, exec_bits_eq_drawn rfl hn, ?_, ?_, ?_⟩
  · simpa [bitCount] using hS
  · rw [resultsFrom_length, List.length_replicate]
  · exact (drawn_ACC_toNat s.regs.S hn).trans (ofDigits_singleBits n.toNat s.regs.S).symm

/-- Settles O20: the stream cut after `a` bits. -/
theorem splittingAnExtraction : Obligations.SplittingAnExtraction := by
  intro s a b c hc hle
  have ha : a.toNat ≤ s.width.W := by omega
  have hb : b.toNat ≤ s.width.W := by omega
  refine ⟨_, _, _, exec_bits_eq_drawn rfl ha, exec_bits_eq_drawn rfl hb, exec_bits_eq_drawn rfl hle, ?_, ?_⟩
  · simp only [setRegs_regs, drawn_S]
    rw [hc, Nat.add_comm, Function.iterate_add_apply]
  · calc (drawn s.width.W c.toNat s.regs.S).ACC.toNat
        = streamNumber (a.toNat + b.toNat) s.regs.S := by rw [drawn_ACC_toNat _ hle, hc]
      _ = streamNumber a.toNat s.regs.S * 2 ^ b.toNat + streamNumber b.toNat (step32^[a.toNat] s.regs.S) :=
          streamNumber_add ..
      _ = _ := congrArg₂ (· * 2 ^ b.toNat + ·) (drawn_ACC_toNat _ ha).symm (drawn_ACC_toNat _ hb).symm

/-- Settles O19: the state registers of `drawn`. -/
theorem extractionAdvancesOncePerBit : Obligations.ExtractionAdvancesOncePerBit :=
  fun s => ⟨⟨_, exec_bit_eq_drawn s, rfl⟩, ⟨_, exec_byte_eq_drawn s, rfl⟩,
    fun _ hn => ⟨_, exec_bits_eq_drawn rfl hn, rfl⟩, ⟨_, exec_bits_eq_drawn (k := 0) rfl (Nat.zero_le _), rfl⟩⟩

/-- Settles O18: the result of `drawn`, which loses no bit. -/
theorem resultHoldsItsBitsInOrder : Obligations.ResultHoldsItsBitsInOrder := by
  intro i s t hi h
  obtain ⟨hwf, -⟩ := exec_ok.1 h
  obtain rfl := Host.Outcome.next.inj ((exec_extraction hi hwf).symm.trans h)
  have hle := bitCount_le s.width.ok hwf
  exact ⟨drawn_ACC_lt s.regs.S hle, fun k hk => drawn_ACC_getLsbD s.regs.S hle hk⟩

/-! ### Each command on its own, with the rules' examples -/

/-- Bit 0 of the new state, read off the old one (R50): of the three shifts only the one by 17 reaches bit 0, and
bit 17 of the first line holds bit 4 of the old state, brought there by the shift by 13. -/
theorem outBit_step32 (x : Word) :
    outBit (step32 x) = ((x.getLsbD 0 ^^ x.getLsbD 4) ^^ x.getLsbD 17) := by
  have hC (y : Word) : (mixC y).getLsbD 0 = y.getLsbD 0 := by simp [mixC, SH_C]
  have hB (y : Word) : (mixB y).getLsbD 0 = (y.getLsbD 0 ^^ y.getLsbD 17) := by simp [mixB, SH_B]
  have hA0 : (mixA x).getLsbD 0 = x.getLsbD 0 := by simp [mixA, SH_A]
  have hA17 : (mixA x).getLsbD 17 = (x.getLsbD 17 ^^ x.getLsbD 4) := by simp [mixA, SH_A]
  rw [outBit, OUT_BIT, step32, hC, hB, hA0, hA17, Bool.xor_assoc, Bool.xor_comm (x.getLsbD 17)]

/-- Settles O11: the three examples are evaluated. -/
theorem nextbitReturnsBitOfNewState : Obligations.NextbitReturnsBitOfNewState :=
  ⟨fun x => ⟨rfl, rfl, outBit_step32 x⟩, by decide⟩

/-- The example of R53, and the first of R52. -/
theorem eight_bits_from_one : streamNumber 8 1 = 0xF8 ∧ step32^[8] 1 = 0x19F91CB2 := by decide

/-- The second example of R52, from where the first one ends. -/
theorem ten_bits_after_eight :
    streamNumber 10 0x19F91CB2 = 0x2CC ∧ step32^[10] 0x19F91CB2 = 0xC613DB08 := by decide

/-- The third example of R52. -/
theorem three_bits_from_one : streamNumber 3 1 = 7 ∧ step32^[3] 1 = 0x9DCCA8C5 := by decide

/-- Settles O15: `BIT` as its rule reads. -/
theorem bitExtractsOneBit : Obligations.BitExtractsOneBit := by
  refine ⟨fun a => decode_ok.2 ⟨(Laws.fields_append _ a).1, rfl⟩, fun s => ?_⟩
  have hacc := zextBit_toNat (Nat.lt_of_lt_of_le (by decide) s.width.ok) (outBit (step32 s.regs.S))
  have hone : step32 1 = 0x00042021 := by decide
  refine ⟨_, rfl, exec_bit s, hacc, outputs_completed _ _, exec_bits_one s, fun hS => ?_⟩
  exact ⟨(congrArg step32 hS).trans hone, hacc.trans (by rw [hS, hone]; rfl)⟩

/-- Settles O17: the registers `drawn` of eight bits. -/
theorem byteExtractsEightBits : Obligations.ByteExtractsEightBits := by
  refine ⟨fun a => decode_ok.2 ⟨(Laws.fields_append _ a).1, rfl⟩, fun s => ?_⟩
  have hW : 8 ≤ s.width.W := s.width.ok
  have hacc := drawn_ACC_toNat s.regs.S hW
  refine ⟨_, rfl, exec_byte_eq_drawn s, exec_bits_eq_drawn rfl hW, hacc, drawn_ACC_lt s.regs.S hW,
    drawn_ACC_getLsbD (k := 0) s.regs.S hW (by decide), drawn_ACC_getLsbD (k := 7) s.regs.S hW (by decide),
    outputs_completed _ _, fun hS => ?_⟩
  obtain ⟨hnum, hstate⟩ := eight_bits_from_one
  exact ⟨hacc.trans (by rw [hS, hnum]), by rw [hS, hstate]⟩

/-- Settles O16: the registers `drawn`, the refusal, and the three examples. -/
theorem bitsExtractsCountFirstBitHighest : Obligations.BitsExtractsCountFirstBitHighest := by
  refine ⟨fun a => ?_, fun s n hn => ?_, fun s => ?_, fun s n hn => ?_, fun s hS hW => ?_⟩
  · obtain ⟨hop, harg⟩ := Laws.fields_append 0x03 a
    exact decode_ok.2 ⟨hop, congrArg Instr.bits harg⟩
  · exact ⟨_, rfl, exec_bits_eq_drawn rfl hn, drawn_ACC_toNat _ hn, drawn_ACC_lt _ hn, outputs_completed _ _⟩
  · exact ⟨exec_bits_eq_drawn (k := 0) rfl (Nat.zero_le _), exec_bits_one s, exec_bits_eight s⟩
  · exact exec_refused.2 (refusedFor_bits.2 ⟨hn, rfl⟩)
  · have h3 : 3 ≤ s.width.W := Nat.le_trans (by decide) hW
    obtain ⟨hnum8, hstate8⟩ := eight_bits_from_one
    obtain ⟨hnum10, hstate10⟩ := ten_bits_after_eight
    obtain ⟨hnum3, hstate3⟩ := three_bits_from_one
    have hS8 : step32^[8] s.regs.S = 0x19F91CB2 := by rw [hS, hstate8]
    refine ⟨_, _, _, exec_bits_eq_drawn (k := 8) rfl s.width.ok, ?_, hS8,
      exec_bits_eq_drawn (k := 10) rfl hW, ?_, ?_, exec_bits_eq_drawn (k := 3) rfl h3, ?_, ?_⟩
    · exact (drawn_ACC_toNat _ s.width.ok).trans (by rw [hS, hnum8])
    · exact (drawn_ACC_toNat _ hW).trans (by rw [setRegs_regs, drawn_S, hS8, hnum10])
    · exact (congrArg step32^[10] hS8).trans hstate10
    · exact (drawn_ACC_toNat _ h3).trans (by rw [hS, hnum3])
    · exact (congrArg step32^[3] hS).trans hstate3

end Sys2Proof.Machine
end

section
/-! SUPPORT. Runs of edges at which a block with nothing in flight is presented nothing (R69, R75). -/

namespace Sys2Proof.Machine

/-- With nothing in flight, an idle edge holds every register but `DONE` (R75). -/
theorem latch_idleControls {W : Nat} {r : Regs W} (hc : r.CNT = 0) (arg : Word) :
    latch idleControls arg r = { r with DONE := false } := by
  simp [latch, idleControls, hc]

/-- An edge with nothing in flight and nothing presented clears `DONE`, and leaves all else as it was (R69). -/
theorem clockEdge_nothingPresented {p : Pins} {s : State} (hl : s.live = true) (hc : s.regs.CNT = 0)
    (hr : p.rst = false) (hv : p.cmdValid = false) :
    clockEdge p s = .next (s.setRegs { s.regs with DONE := false }) := by
  rw [clockEdge_live hl, edgeControls_idle hr ((busy_eq_false _).2 hc) hv]
  simp only [latch_idleControls hc]

/-- Settles O35, by induction on the edges: the first clears `DONE`, so neither it nor a later one shows a
response. -/
theorem idleBlockHoldsItsState : Obligations.IdleBlockHoldsItsState := by
  intro ps
  induction ps with
  | nil =>
    intro s _ _ _
    simp [runEdges]
  | cons p ps ih =>
    intro s hl hc hps
    obtain ⟨⟨hr, hv⟩, hrest⟩ := List.forall_mem_cons.1 hps
    have hrun := ih (s.setRegs { s.regs with DONE := false }) hl hc hrest
    rw [runEdges, clockEdge_nothingPresented hl hc hr hv, andThen_of_next hrun]
    simp [State.setRegs, Regs.response]

end Sys2Proof.Machine
end

section
/-! SUPPORT. One edge of a block that has been reset, written in registers: a command in flight loses one of the
bits it owes, an accepted command owes all of its own, and with none owed it has completed (R75). With it the
reset edge (R70). -/

namespace Sys2Proof.Machine

/-- One round of the extraction loop (R52). -/
def extractBit {W : Nat} (d : Word × BitVec W) : Word × BitVec W :=
  (step32 d.1, shiftIn d.2 (outBit (step32 d.1)))

theorem extract_succ_eq_extractBit {W : Nat} (n : Nat) (d : Word × BitVec W) :
    extract (n + 1) d.1 d.2 = extract n (extractBit d).1 (extractBit d).2 := rfl

/-- The registers after an edge at which a command in flight still owes `n` bits, with `S` and `ACC` as the pair
says; owing none, it completed at that edge. -/
def owing {W : Nat} (n : Nat) (d : Word × BitVec W) : Regs W :=
  { S := d.1, ACC := d.2, CNT := BitVec.ofNat _ n, DONE := n == 0 }

section
variable {W n : Nat} {d : Word × BitVec W} {i : Instr} {r : Regs W}

theorem owing_CNT_toNat (hn : n < 2 ^ cntw W) : (owing n d).CNT.toNat = n :=
  (BitVec.toNat_ofNat ..).trans (Nat.mod_eq_of_lt hn)

theorem owing_CNT_ne_zero (hn : n + 1 < 2 ^ cntw W) : (owing (n + 1) d).CNT ≠ 0 := fun h => by
  have h0 := congrArg BitVec.toNat h
  rw [owing_CNT_toNat hn] at h0
  exact Nat.succ_ne_zero n (h0.trans BitVec.toNat_zero)

/-- A block that owes bits is not ready (R15, R74). -/
theorem owing_cmdReady (hn : n + 1 < 2 ^ cntw W) : (owing (n + 1) d).outputs.cmdReady = false := by
  simp only [Regs.outputs, (busy_eq_true _).2 (owing_CNT_ne_zero hn), Bool.not_true]

/-- A completed command shows its response, and one that still owes bits shows none (R25). -/
theorem owing_zero_response : (owing 0 d).response = [d.2.toNat] := rfl

theorem owing_succ_response : (owing (n + 1) d).response = [] := rfl

theorem CNT_toNat_ne_zero (hc : r.CNT ≠ 0) : r.CNT.toNat ≠ 0 :=
  fun h => hc (BitVec.eq_of_toNat_eq (h.trans BitVec.toNat_zero.symm))

/-- A micro-step pays one of the owed bits (R75). -/
theorem latch_microStep_eq_owing (hc : r.CNT ≠ 0) :
    latch (microStepControls r) 0 r = owing (r.CNT.toNat - 1) (extractBit (r.S, r.ACC)) := by
  have hpos := CNT_toNat_ne_zero hc
  have hcnt : r.CNT - 1 = BitVec.ofNat _ (r.CNT.toNat - 1) := by
    rw [← counter_sub_one_toNat hc, BitVec.ofNat_toNat, BitVec.setWidth_eq]
  have hone : (1 : BitVec (cntw W)).toNat = 1 := by simp
  have hdone : lastMicroStep r = (r.CNT.toNat - 1 == 0) := by
    rw [lastMicroStep, Bool.eq_iff_iff, beq_iff_eq, beq_iff_eq, ← BitVec.toNat_inj, hone]
    omega
  simp only [latch, microStepControls, sMux_step, aMux_shift, owing, extractBit, hcnt, hdone]

/-- The registers after the edge that accepts a command: it owes all its bits (R75). -/
def accepting {W : Nat} (i : Instr) (r : Regs W) : Regs W :=
  owing (bitCount i) (sMux (acceptSel i) r.S i.operand, 0)

/-- The edge that accepts a command reads its operand off the word it stands for. -/
theorem latch_accept_eq_accepting {w : CmdWord} (hd : decode w = .ok i) :
    latch (acceptControls W i) (argField w) r = accepting i r := by
  cases i with
  | seed x =>
    obtain ⟨-, rfl⟩ := decode_ok_seed.1 hd
    rfl
  | init | bit | bits | byte => rfl

/-- A whole command is its acceptance with all owed bits extracted (R76). -/
theorem regsAfter_eq_owing :
    regsAfter i r = owing 0 (extract (bitCount i) (accepting i r).S (accepting i r).ACC) := rfl

end

section
variable {s : State} {p : Pins}

/-- A reset edge has the same effect in every state and with anything presented (R70). -/
theorem clockEdge_reset (hr : p.rst = true) :
    clockEdge p s = .next { s with regs := Regs.reset, live := true } :=
  clockEdge_of_ok (by simp [hr]) (edgeControls_reset hr)

theorem clockEdge_busy (hl : s.live = true) (hr : p.rst = false) (hc : s.regs.CNT ≠ 0) :
    clockEdge p s = .next (s.setRegs (owing (s.regs.CNT.toNat - 1) (extractBit (s.regs.S, s.regs.ACC)))) := by
  rw [clockEdge_microStep hl hr hc, latch_microStep_eq_owing hc]

theorem clockEdge_owing {n : Nat} {d : Word × BitVec s.width.W} (hl : s.live = true) (hr : p.rst = false)
    (hn : n + 1 < 2 ^ cntw s.width.W) :
    clockEdge p (s.setRegs (owing (n + 1) d)) = .next (s.setRegs (owing n (extractBit d))) := by
  have hcnt : (owing (n + 1) d).CNT.toNat - 1 = n := by rw [owing_CNT_toNat hn, Nat.add_sub_cancel]
  conv_rhs => rw [← hcnt]
  exact clockEdge_busy (s := s.setRegs (owing (n + 1) d)) hl hr (owing_CNT_ne_zero hn)

theorem clockEdge_accept {i : Instr} (hl : s.live = true) (hr : p.rst = false) (hc : s.regs.CNT = 0)
    (hv : p.cmdValid = true) (hd : decode p.cmdWord = .ok i) (hwf : i.wellFormed s.width.W = true) :
    clockEdge p s = .next (s.setRegs (accepting i s.regs)) := by
  rw [clockEdge_live hl, edgeControls_accept hr ((busy_eq_false _).2 hc) hv, acceptWord_ok.2 ⟨i, hd, hwf, rfl⟩]
  simp only [latch_accept_eq_accepting hd]

end

end Sys2Proof.Machine
end

section
/-! SUPPORT. The edges of a command in flight (R76, R77, R84): each pays one owed bit, so after `k` of them the
registers hold what `k` rounds of the extraction leave. -/

namespace Sys2Proof.Machine

/-- Once an edge has left a command owing bits, each edge that follows pays one of them, whatever is presented; a
response shows at the last edge, if none is owed there, and at no other. -/
theorem runEdges_of_owing {s s₀ : State} {p : Pins} {ps : List Pins} {n : Nat} {d : Word × BitVec s.width.W}
    (hl : s.live = true) (hps : ∀ q ∈ ps, q.rst = false) (hn : ps.length + n < 2 ^ cntw s.width.W)
    (h : clockEdge p s₀ = .next (s.setRegs (owing (ps.length + n) d))) :
    runEdges (p :: ps) s₀ = .next (s.setRegs (owing n (extract ps.length d.1 d.2)),
      (owing n (extract ps.length d.1 d.2)).response) := by
  induction ps generalizing s₀ p d with
  | nil =>
    rw [List.length_nil, Nat.zero_add] at h
    rw [runEdges, h, andThen_of_next (k := runEdges []) rfl, List.append_nil]
    rfl
  | cons q ps ih =>
    obtain ⟨hq, hps⟩ := List.forall_mem_cons.1 hps
    rw [List.length_cons, Nat.add_right_comm] at h hn
    have hrest := ih hps (Nat.lt_of_succ_lt hn) (clockEdge_owing (d := d) hl hq hn)
    rw [runEdges, h, andThen_of_next hrest, List.length_cons, extract_succ_eq_extractBit]
    exact congrArg _ (congrArg _ (List.nil_append _))

/-- Settles O36: acceptance leaves the command owing all its bits, and the edges that follow extract them. -/
theorem clockedCommandAgreesWithCommandLevel : Obligations.ClockedCommandAgreesWithCommandLevel := by
  intro s w i ps hl hc hd hwf hlen hps
  have hfits : bitCount i < 2 ^ cntw s.width.W :=
    (bitCount_le s.width.ok hwf).trans_lt (width_lt_two_pow_cntw _)
  have haccept := clockEdge_accept (p := .present w) hl rfl hc rfl hd hwf
  constructor
  · refine ⟨_, exec_of_wellFormed hwf, ?_⟩
    rw [regsAfter_eq_owing, ← hlen]
    rw [accepting, ← hlen] at haccept
    exact runEdges_of_owing (n := 0) hl hps (hlen ▸ hfits) haccept
  · intro j hj
    have htake : (ps.take j).length = j := by rw [List.length_take, hlen, Nat.min_eq_left hj.le]
    obtain ⟨m, hm⟩ := Nat.exists_eq_add_of_lt hj
    have howed : bitCount i = (ps.take j).length + (m + 1) := by omega
    rw [accepting, howed] at haccept
    have hrun := runEdges_of_owing hl (fun q hq => hps q (List.mem_of_mem_take hq)) (howed ▸ hfits) haccept
    have hfits : m + 1 < 2 ^ cntw s.width.W := by omega
    refine ⟨_, hrun, ?_, ?_⟩
    · exact (owing_CNT_toNat hfits).trans (by omega)
    · exact owing_cmdReady hfits

/-- With room left for the owed bits, extracting them loses none (R52, R55). -/
theorem extract_snd_of_room {W n : Nat} {x : Word} {acc : BitVec W} (hW : 0 < W) (hn : n ≤ W)
    (hroom : acc.toNat * 2 ^ n < 2 ^ W) :
    (extract n x acc).2.toNat = acc.toNat * 2 ^ n + streamNumber n x := by
  rw [extract_snd hW]
  apply Nat.mod_eq_of_lt
  rw [← Nat.pow_sub_mul_pow 2 hn] at hroom ⊢
  have hacc : acc.toNat + 1 ≤ 2 ^ (W - n) := Nat.lt_of_mul_lt_mul_right hroom
  calc acc.toNat * 2 ^ n + streamNumber n x
      < (acc.toNat + 1) * 2 ^ n := by rw [Nat.succ_mul]; exact Nat.add_lt_add_left (streamNumber_lt n x) _
    _ ≤ 2 ^ (W - n) * 2 ^ n := Nat.mul_le_mul_right _ hacc

/-- Settles O38: the first edge leaves one bit fewer owed, and the others extract the rest; an idle edge then
clears `DONE`. -/
theorem commandInFlightEnds : Obligations.CommandInFlightEnds := by
  intro s ps hl hinv hc hlen hps
  obtain ⟨-, hle, -, hroom⟩ := hinv hl
  rw [← hlen] at hle hroom
  have hW : 0 < s.width.W := Nat.lt_of_lt_of_le (by decide) s.width.ok
  cases ps with
  | nil => exact absurd hlen.symm (CNT_toNat_ne_zero hc)
  | cons p ps =>
    obtain ⟨hp, hps⟩ := List.forall_mem_cons.1 hps
    have hstep := clockEdge_busy hl hp hc
    rw [← hlen, List.length_cons, Nat.add_sub_cancel] at hstep
    have hrun := runEdges_of_owing (n := 0) hl hps ((Nat.le_of_succ_le hle).trans_lt (width_lt_two_pow_cntw _)) hstep
    exact ⟨hle, _, _, hrun, extract_fst (ps.length + 1) s.regs.S s.regs.ACC, extract_snd_of_room hW hle hroom,
      rfl, rfl, clockEdge_nothingPresented hl rfl rfl rfl, rfl, rfl⟩

/-- A run whose first step answers a next state goes on from there. -/
theorem run_succ_of_step {k : Nat} {s t : State} (h : step s = .next t) :
    Host.Core.run core (k + 1) s = Host.Core.run core k t := by
  have hstep : core.step s = .next t := h
  simp only [Host.Core.run, hstep]

/-- While a word is held, as many steps as bits are owed end the command in flight; the word stays (R77). -/
theorem run_held_command {n : Nat} {s : State} {w : CmdWord} {rest : List HostInput} (hl : s.live = true)
    (hn : s.regs.CNT.toNat = n) (hin : s.inputs = .command w :: rest) :
    ∃ t : State, Host.Core.run core n s = .next t ∧ t.width = s.width ∧ t.live = true ∧ t.regs.CNT = 0 ∧
      t.regs.S = step32^[n] s.regs.S ∧ t.inputs = .command w :: rest := by
  induction n generalizing s with
  | zero => exact ⟨s, rfl, rfl, hl, BitVec.eq_of_toNat_eq (hn.trans BitVec.toNat_zero.symm), rfl, hin⟩
  | succ n ih =>
    have hc : s.regs.CNT ≠ 0 := fun h => by simp [h] at hn
    have hfits : n < 2 ^ cntw s.width.W := Nat.lt_of_succ_lt (hn.symm.trans_lt s.regs.CNT.isLt)
    have hstep : step s = .next (s.setRegs (owing n (extractBit (s.regs.S, s.regs.ACC)))) := by
      rw [step_command_busy hl hc hin, clockEdge_busy hl rfl hc, hn, Nat.add_sub_cancel]
    obtain ⟨t, hrun, hrest⟩ := ih (s := s.setRegs (owing n _)) hl (owing_CNT_toNat hfits) hin
    exact ⟨t, (run_succ_of_step hstep).trans hrun, hrest⟩

/-- Settles O34: a busy edge reads no pin but `rst`, and the steps of the command in flight keep the word. -/
theorem commandHeldWhileBusyRunsWhenReady : Obligations.CommandHeldWhileBusyRunsWhenReady := by
  refine ⟨fun s rst v v' w w' hl hc => ?_, fun s w rest i hl hin hd => ?_⟩
  · cases rst with
    | true => rw [clockEdge_reset rfl, clockEdge_reset rfl]
    | false => rw [clockEdge_busy hl rfl hc, clockEdge_busy hl rfl hc]
  · obtain ⟨t, hrun, hw, hlt, hct, hS, hint⟩ := run_held_command hl rfl hin
    exact ⟨t, hrun, hw, hct, hS, hint, step_command_idle hlt hct hint hd⟩

end Sys2Proof.Machine
end

section
/-! SUPPORT. Runs at the cycle level without reset, followed command by command at the command level (R29, R58,
R76): while a command is in flight, the command level is already where that command will end. -/

namespace Sys2Proof.Machine

/-- The response still to come from the command in flight, if there is one. -/
def Regs.pending {W : Nat} (r : Regs W) : List Nat :=
  if r.CNT = 0 then [] else [(extract r.CNT.toNat r.S r.ACC).2.toNat]

section
variable {W n : Nat} {d : Word × BitVec W} {r : Regs W}

theorem pending_idle (hc : r.CNT = 0) : r.pending = [] := if_pos hc

theorem pending_busy (hc : r.CNT ≠ 0) : r.pending = [(extract r.CNT.toNat r.S r.ACC).2.toNat] := if_neg hc

theorem extract_owing (d : Word × BitVec W) (hn : n < 2 ^ cntw W) :
    extract (owing n d).CNT.toNat (owing n d).S (owing n d).ACC = extract n d.1 d.2 := by
  rw [owing_CNT_toNat hn]
  rfl

/-- The one response of a command, now or to come. -/
theorem owing_response_append_pending (hn : n < 2 ^ cntw W) :
    (owing n d).response ++ (owing n d).pending = [(extract n d.1 d.2).2.toNat] := by
  cases n with
  | zero => rw [pending_idle rfl, List.append_nil, owing_zero_response, extract_zero]
  | succ n => rw [pending_busy (owing_CNT_ne_zero hn), extract_owing d hn, owing_succ_response, List.nil_append]

/-- The bits a busy block owes are the next one and the others. -/
theorem extract_busy (hc : r.CNT ≠ 0) : extract r.CNT.toNat r.S r.ACC =
    extract (r.CNT.toNat - 1) (extractBit (r.S, r.ACC)).1 (extractBit (r.S, r.ACC)).2 := by
  obtain ⟨n, hn⟩ := Nat.exists_eq_succ_of_ne_zero (CNT_toNat_ne_zero hc)
  rw [hn]
  exact extract_succ_eq_extractBit n (r.S, r.ACC)

end

section
variable {s t : State} {p : Pins}

theorem acceptedAt_busy (hc : s.regs.CNT ≠ 0) : acceptedAt p s = [] := by
  simp [acceptedAt, (busy_eq_true _).2 hc]

theorem acceptedAt_nothingPresented (hv : p.cmdValid = false) : acceptedAt p s = [] := by
  simp [acceptedAt, hv]

theorem acceptedIn_cons {ps : List Pins} (h : clockEdge p s = .next t) :
    acceptedIn (p :: ps) s = acceptedAt p s ++ acceptedIn ps t := by
  simp only [acceptedIn, h]

/-- All an edge without reset can do to a block that has been reset, when it answers a next state: a micro-step,
the acceptance of a command, or nothing but clearing `DONE` (R75). -/
theorem clockEdge_next_of_live (hl : s.live = true) (hr : p.rst = false) (h : clockEdge p s = .next t) :
    (s.regs.CNT ≠ 0 ∧ acceptedAt p s = [] ∧
      t = s.setRegs (owing (s.regs.CNT.toNat - 1) (extractBit (s.regs.S, s.regs.ACC)))) ∨
    (s.regs.CNT = 0 ∧ ∃ i, acceptedAt p s = [i] ∧ i.wellFormed s.width.W = true ∧
      t = s.setRegs (accepting i s.regs)) ∨
    (s.regs.CNT = 0 ∧ acceptedAt p s = [] ∧ t = s.setRegs { s.regs with DONE := false }) := by
  obtain ⟨-, c, hok, -⟩ := clockEdge_next h
  obtain ⟨hr', -⟩ | ⟨-, hc, -⟩ | ⟨-, hc, hv, i, hd, hwf, -⟩ | ⟨-, hc, hv, -⟩ := edgeControls_ok hok
  case inl => simp [hr] at hr'
  case inr.inl =>
    exact .inl ⟨hc, acceptedAt_busy hc, Host.Outcome.next.inj (h.symm.trans (clockEdge_busy hl hr hc))⟩
  case inr.inr.inl =>
    exact .inr (.inl ⟨hc, i, acceptedAt_eq_singleton.2 ⟨hr, hv, (busy_eq_false _).2 hc, hd⟩, hwf,
      Host.Outcome.next.inj (h.symm.trans (clockEdge_accept hl hr hc hv hd hwf))⟩)
  case inr.inr.inr =>
    exact .inr (.inr ⟨hc, acceptedAt_nothingPresented hv,
      Host.Outcome.next.inj (h.symm.trans (clockEdge_nothingPresented hl hc hr hv))⟩)

/-- Every command of a run that ends has one response (R25). -/
theorem runCommands_length {P : List Instr} {rs : List Nat} (h : runCommands P s = .next (t, rs)) :
    rs.length = P.length := by
  induction P generalizing s rs with
  | nil =>
    cases h
    rfl
  | cons i P ih =>
    obtain ⟨u, us, hexec, hrun, rfl⟩ := andThen_next h
    obtain ⟨-, -, -, -, hdone⟩ := commandChangesRegistersOnly.1 i s u hexec
    rw [List.length_append, response_length, hdone, ih hrun]
    exact Nat.add_comm 1 P.length

end

/-- The two levels side by side. At the command level the registers `r` stand where the command in flight will
end; a run of edges that ends with nothing in flight then shows the response that is still to come, and those of
its accepted commands run from `r`, and ends with the data they leave. -/
theorem runEdges_follows_runCommands {ps : List Pins} {s t : State} {rs : List Nat} {r : Regs s.width.W}
    (hl : s.live = true) (hps : ∀ p ∈ ps, p.rst = false) (hrun : runEdges ps s = .next (t, rs))
    (ht : t.regs.CNT = 0) (hr : (r.S, r.ACC) = extract s.regs.CNT.toNat s.regs.S s.regs.ACC) :
    ∃ u rs', runCommands (acceptedIn ps s) (s.setRegs r) = .next (u, rs') ∧ rs = s.regs.pending ++ rs' ∧
      u.regs.S = t.regs.S ∧ u.regs.ACC.toNat = t.regs.ACC.toNat := by
  induction ps generalizing s rs with
  | nil =>
    cases hrun
    rw [ht] at hr
    obtain ⟨hS, hACC⟩ := Prod.mk.inj hr
    exact ⟨t.setRegs r, [], rfl, by rw [pending_idle ht, List.append_nil], hS, congrArg BitVec.toNat hACC⟩
  | cons p ps ih =>
    obtain ⟨hp, hps⟩ := List.forall_mem_cons.1 hps
    obtain ⟨s', rs', hedge, hrest, rfl⟩ := andThen_next hrun
    rw [acceptedIn_cons hedge]
    obtain ⟨hc, hnone, rfl⟩ | ⟨hc, i, hone, hwf, rfl⟩ | ⟨hc, hnone, rfl⟩ :=
      clockEdge_next_of_live hl hp hedge
    case inl =>
      have hfits : s.regs.CNT.toNat - 1 < 2 ^ cntw s.width.W := (Nat.sub_le _ 1).trans_lt s.regs.CNT.isLt
      rw [extract_busy hc] at hr
      obtain ⟨u, us, hcmds, rfl, hdata⟩ :=
        ih (s := s.setRegs (owing _ _)) (r := r) hl hps hrest (hr.trans (extract_owing _ hfits).symm)
      refine ⟨u, us, by rw [hnone]; exact hcmds, ?_, hdata⟩
      rw [pending_busy hc, extract_busy hc, ← List.append_assoc]
      exact congrArg (· ++ us) (owing_response_append_pending hfits)
    case inr.inl =>
      have hfits : bitCount i < 2 ^ cntw s.width.W :=
        (bitCount_le s.width.ok hwf).trans_lt (width_lt_two_pow_cntw _)
      rw [hc] at hr
      have hafter : regsAfter i r = regsAfter i s.regs := regsAfter_congr (Prod.mk.inj hr).1
      have hexec : exec i (s.setRegs r) = .next (s.setRegs (regsAfter i s.regs)) := by
        rw [← hafter]
        exact exec_of_wellFormed (s := s.setRegs r) hwf
      obtain ⟨u, us, hcmds, rfl, hdata⟩ :=
        ih (s := s.setRegs (accepting i s.regs)) (r := regsAfter i s.regs) hl hps hrest
          (extract_owing (_, 0) hfits).symm
      refine ⟨u, _, by rw [hone]; exact runCommands_cons hexec hcmds, ?_, hdata⟩
      rw [pending_idle hc, List.nil_append, ← List.append_assoc]
      exact congrArg (· ++ us) (owing_response_append_pending hfits)
    case inr.inr =>
      obtain ⟨u, us, hcmds, rfl, hdata⟩ :=
        ih (s := s.setRegs { s.regs with DONE := false }) (r := r) hl hps hrest hr
      exact ⟨u, us, by rw [hnone]; exact hcmds, rfl, hdata⟩

/-- Settles O37: with nothing in flight the command level starts from the same state, and no response is owed. -/
theorem responsesAreThoseOfAcceptedCommands : Obligations.ResponsesAreThoseOfAcceptedCommands := by
  intro ps s t rs hl hc hps hrun ht
  obtain ⟨u, us, hcmds, rfl, hS, hACC⟩ :=
    runEdges_follows_runCommands (r := s.regs) hl hps hrun ht (by rw [hc]; rfl)
  rw [pending_idle hc, List.nil_append]
  exact ⟨u, hcmds, runCommands_length hcmds, hS, hACC⟩

end Sys2Proof.Machine
end

section
/-! SUPPORT. Under a host that keeps its duties every step answers (R84, R85). -/

namespace Sys2Proof.Machine

theorem admittedWord_iff {W : Nat} {w : CmdWord} :
    admittedWord W w = true ↔ ∃ i, decode w = .ok i ∧ i.wellFormed W = true := by
  unfold admittedWord
  cases decode w <;> simp

section
variable {s : State} {p : Pins} {rest : List HostInput}

/-- An edge of a conforming host answers a next state. -/
theorem clockEdge_answers (hlive : (s.live || p.rst) = true)
    (hword : p.rst = false → p.cmdValid = true → admittedWord s.width.W p.cmdWord = true) :
    ∃ t, clockEdge p s = .next t := by
  cases hr : p.rst with
  | true => exact ⟨_, clockEdge_reset hr⟩
  | false =>
    have hl : s.live = true := by simpa [hr] using hlive
    by_cases hc : s.regs.CNT = 0
    · cases hv : p.cmdValid with
      | true =>
        obtain ⟨i, hd, hwf⟩ := admittedWord_iff.1 (hword hr hv)
        exact ⟨_, clockEdge_accept hl hr hc hv hd hwf⟩
      | false => exact ⟨_, clockEdge_nothingPresented hl hc hr hv⟩
    · exact ⟨_, clockEdge_busy hl hr hc⟩

/-- What the host's duties say of an edge it makes next (R85). -/
theorem conforming_edge {W : Nat} {live : Bool} (h : conforming W live (.edge p :: rest) = true) :
    (live || p.rst) = true ∧ (p.rst = false → p.cmdValid = true → admittedWord W p.cmdWord = true) ∧
      conforming W true rest = true := by
  unfold conforming at h
  cases hr : p.rst with
  | true => exact ⟨by simp, nofun, by simpa [hr] using h⟩
  | false =>
    simp only [hr, Bool.false_eq_true, if_false, Bool.and_eq_true, Bool.or_eq_true, Bool.not_eq_true'] at h
    obtain ⟨⟨hl, hw⟩, hrest⟩ := h
    exact ⟨by rw [hl, Bool.true_or], fun _ hv => by simpa [hv] using hw, hl ▸ hrest⟩

/-- What the host's duties say of a command it hands over next (R85). -/
theorem conforming_command {W : Nat} {live : Bool} {w : CmdWord}
    (h : conforming W live (.command w :: rest) = true) :
    live = true ∧ (∃ i, decode w = .ok i ∧ i.wellFormed W = true) ∧ conforming W true rest = true := by
  simp only [conforming, Bool.and_eq_true] at h
  obtain ⟨⟨hl, hw⟩, hrest⟩ := h
  exact ⟨hl, admittedWord_iff.1 hw, hl ▸ hrest⟩

/-- An edge takes no move off the list, and leaves the block reset. -/
theorem clockEdge_conforming {t : State} (h : clockEdge p s = .next t)
    (hhost : conforming s.width.W true s.inputs = true) : conforming t.width.W t.live t.inputs = true := by
  obtain ⟨hwidth, hinputs, hlive⟩ := clockEdge_frame h
  rwa [hwidth, hinputs, hlive]

/-- A command takes no move off the list, and keeps the reset mark. -/
theorem exec_conforming {i : Instr} {t : State} (h : exec i s = .next t)
    (hhost : conforming s.width.W s.live s.inputs = true) : conforming t.width.W t.live t.inputs = true := by
  obtain ⟨hwidth, hlive, hinputs⟩ := exec_frame h
  rwa [hwidth, hlive, hinputs]

/-- A step under a conforming host answers a next state, and the host conforms from there on. -/
theorem step_answers (h : conforming s.width.W s.live s.inputs = true) :
    ∃ t, step s = .next t ∧ conforming t.width.W t.live t.inputs = true := by
  cases hin : s.inputs with
  | nil =>
    have hl : s.live = true := by simpa [hin, conforming] using h
    obtain ⟨t, ht⟩ := clockEdge_answers (s := s) (p := .idle) (by simp [hl]) nofun
    exact ⟨t, (step_no_input hin).trans ht, clockEdge_conforming ht (hl ▸ h)⟩
  | cons m rest =>
    cases m with
    | edge p =>
      obtain ⟨hlive, hword, hrest⟩ := conforming_edge (hin ▸ h)
      obtain ⟨t, ht⟩ := clockEdge_answers (s := s.setInputs rest) hlive hword
      exact ⟨t, (step_edge hin).trans ht, clockEdge_conforming ht hrest⟩
    | command w =>
      obtain ⟨hl, ⟨i, hd, hwf⟩, hrest⟩ := conforming_command (hin ▸ h)
      by_cases hc : s.regs.CNT = 0
      · have ht := exec_of_wellFormed (s := s.setInputs rest) hwf
        exact ⟨_, (step_command_idle hl hc hin hd).trans ht, exec_conforming ht (hl.symm ▸ hrest)⟩
      · have ht := clockEdge_busy (p := .present w) hl rfl hc
        exact ⟨_, (step_command_busy hl hc hin).trans ht, clockEdge_conforming ht (hl ▸ h)⟩
    | powerUp S acc cnt done =>
      refine ⟨(s.setInputs rest).powerUp S acc cnt done, by simp [step, nextMove, hin], ?_⟩
      simpa [hin, conforming] using h

end

/-- Settles O47, by induction on the steps: each answers, keeps the registers sound and the host conforming. -/
theorem conformingHostIsNeverRefused : Obligations.ConformingHostIsNeverRefused := by
  intro k
  induction k with
  | zero => exact fun s hs => ⟨s, rfl, hs⟩
  | succ k ih =>
    rintro s ⟨hinv, hhost⟩
    obtain ⟨t, hstep, hhost'⟩ := step_answers hhost
    obtain ⟨u, hrun, hsafe⟩ := ih t ⟨stepKeepsRegistersSound s t hinv hstep, hhost'⟩
    exact ⟨u, (run_succ_of_step hstep).trans hrun, hsafe⟩

end Sys2Proof.Machine
end

section
/-! SUPPORT. Steps over a list of moves of one kind (R84): the moves that stand behind the next one are kept, and
change nothing of what it does. -/

namespace Sys2Proof.Machine

/-- Runs that go on alike, past the same response, are alike. -/
theorem andThen_congr {t t' : State} {k k' : State → Host.Outcome Observed Fault Refusal}
    (hresp : t.regs.response = t'.regs.response) (hk : k t = k' t') :
    Observed.andThen (.next t) k = Observed.andThen (.next t') k' := by
  simp only [Observed.andThen, hresp, hk]

/-- The outcome with other coming moves of the host. -/
def withMoves (l : List HostInput) : Host.Outcome State Fault Refusal → Host.Outcome State Fault Refusal
  | .next t => .next (t.setInputs l)
  | .fault f => .fault f
  | .refused r => .refused r

section
variable (l : List HostInput)

theorem exec_setInputs (i : Instr) (s : State) : exec i (s.setInputs l) = withMoves l (exec i s) := by
  cases h : exec i s with
  | next t =>
    obtain ⟨hwf, rfl⟩ := exec_ok.1 h
    exact exec_of_wellFormed (s := s.setInputs l) hwf
  | fault f => cases f
  | refused r => exact exec_refused.2 ((exec_refused (s := s)).1 h)

theorem clockEdge_setInputs (p : Pins) (s : State) :
    clockEdge p (s.setInputs l) = withMoves l (clockEdge p s) := by
  cases h : clockEdge p s with
  | next t =>
    obtain ⟨hlive, c, hc, rfl⟩ := clockEdge_next h
    exact clockEdge_of_ok (s := s.setInputs l) hlive hc
  | fault f => cases f
  | refused r => exact clockEdge_refused.2 ((clockEdge_refused (s := s)).1 h)

/-- Runs that go on alike from one outcome, but for the coming moves, are alike. -/
theorem andThen_withMoves {l' : List HostInput} {o : Host.Outcome State Fault Refusal}
    {k k' : State → Host.Outcome Observed Fault Refusal}
    (h : ∀ t, o = .next t → k (t.setInputs l) = k' (t.setInputs l')) :
    Observed.andThen (withMoves l o) k = Observed.andThen (withMoves l' o) k' := by
  cases o with
  | next t => exact andThen_congr rfl (h t rfl)
  | fault f => cases f
  | refused r => rfl

end

/-- Settles O43, by induction on the moves: a step makes the first one, with the others behind it. -/
theorem stepsFollowTheHostsMoves : Obligations.StepsFollowTheHostsMoves := by
  refine ⟨fun is => ?_, fun ps => ?_⟩
  · induction is with
    | nil => exact fun s _ _ => rfl
    | cons i is ih =>
      intro s hl hc
      have hstep (l : List HostInput) : step (s.setInputs (.command (encode i) :: l)) = exec i (s.setInputs l) :=
        step_command_idle (s := s.setInputs (.command (encode i) :: l)) hl hc rfl (decodeEncodeRoundTrip i)
      rw [List.length_cons, runSteps, runCommands, List.map_cons, hstep, exec_setInputs, exec_setInputs]
      refine andThen_withMoves _ fun t ht => ?_
      obtain ⟨-, hlive, -, hcnt, -⟩ := commandChangesRegistersOnly.1 i s t ht
      exact ih t (hlive.trans hl) hcnt
  · induction ps with
    | nil => exact fun s => rfl
    | cons p ps ih =>
      intro s
      have hstep (l : List HostInput) : step (s.setInputs (.edge p :: l)) = clockEdge p (s.setInputs l) :=
        step_edge (s := s.setInputs (.edge p :: l)) rfl
      rw [List.length_cons, runSteps, runEdges, List.map_cons, hstep, clockEdge_setInputs, clockEdge_setInputs]
      exact andThen_withMoves _ fun t _ => ih t

end Sys2Proof.Machine
end

section
/-! SUPPORT. The edge case by case (R75), the reset edge (R70, R71), and the block before its first one (R72). -/

namespace Sys2Proof.Machine

/-- Settles O26: a reset edge writes the same in every state, and so after another one. -/
theorem resetEdgeWritesResetValues : Obligations.ResetEdgeWritesResetValues :=
  fun _ _ _ hp hq => ⟨_, rfl, clockEdge_reset hp, clockEdge_reset hq, rfl, rfl⟩

/-- Settles O27: the reset edge leaves an idle block, whose response does not show. -/
theorem resetAbandonsCommandInFlight : Obligations.ResetAbandonsCommandInFlight := by
  intro p ps s hl _ hp hps
  have hidle := idleBlockHoldsItsState ps { s with regs := Regs.reset, live := true } rfl rfl hps
  rw [runEdges, clockEdge_reset hp, andThen_of_next hidle]
  simp [Regs.response, hl]

/-- Settles O28: power-up takes the named values, and only a reset edge has a meaning after it. -/
theorem nothingBeforeTheFirstResetEdge : Obligations.NothingBeforeTheFirstResetEdge := by
  refine ⟨fun s x acc cnt done rest => ?_, fun s p w rest hl => ⟨fun hp => ?_, clockEdge_reset, ?_, ?_⟩⟩
  · simp [step, nextMove, State.powerUp, State.setInputs]
  · exact clockEdge_refused.2 (.inl ⟨by rw [hl, hp, Bool.false_or], rfl⟩)
  · rw [step_no_input rfl]
    exact clockEdge_refused.2 (.inl ⟨by rw [setInputs_live, hl]; rfl, rfl⟩)
  · rw [step, nextMove_command rfl, handOver_unreset (s := s.setInputs (.command w :: rest)) hl]

section
variable {s : State} {p : Pins} (hl : s.live = true) (hr : p.rst = false) (hc : s.regs.CNT = 0)
  (hv : p.cmdValid = true)
include hl hr hc hv

/-- An edge that looks at the word refuses it for the reason the word has no meaning. -/
theorem clockEdge_accept_refused {r : Refusal} (h : WordRefusedFor s.width.W p.cmdWord r) :
    clockEdge p s = .refused r := by
  obtain ⟨rst, valid, w⟩ := p
  obtain rfl : rst = false := hr
  obtain rfl : valid = true := hv
  exact (clockEdge_present_refused hl hc).2 h

/-- The edge at which a block with nothing in flight is presented `SEED` (R41, R75). -/
theorem clockEdge_seed {x : Word} (hd : decode p.cmdWord = .ok (.seed x)) :
    clockEdge p s = if x = 0 then .refused .zeroSeed else .next (s.setRegs (completed x 0)) := by
  split
  case isTrue h0 =>
    exact clockEdge_accept_refused hl hr hc hv (.inr ⟨_, commandOf_ok.2 hd, refusedFor_seed.2 ⟨h0, rfl⟩⟩)
  case isFalse h0 =>
    exact clockEdge_accept hl hr hc hv hd (by simpa [Instr.wellFormed, seedOk] using h0)

/-- The edge at which a block with nothing in flight is presented `BITS` (R54, R75). -/
theorem clockEdge_bits {n : Word} (hd : decode p.cmdWord = .ok (.bits n)) :
    clockEdge p s = if s.width.W < n.toNat then .refused .countExceedsWidth else
      .next (s.setRegs (owing n.toNat (s.regs.S, 0))) := by
  split
  case isTrue hgt =>
    exact clockEdge_accept_refused hl hr hc hv (.inr ⟨_, commandOf_ok.2 hd, refusedFor_bits.2 ⟨hgt, rfl⟩⟩)
  case isFalse hle =>
    exact clockEdge_accept hl hr hc hv hd (by simpa [Instr.wellFormed, countOk] using hle)

end

/-- Settles O29: one case for each of the four, and one for each opcode where a word is looked at. -/
theorem clockEdgeFollowsItsFourCases : Obligations.ClockEdgeFollowsItsFourCases := by
  intro s p op arg hl hw
  obtain ⟨hop, harg⟩ := Laws.fields_append op arg
  rw [← hw] at hop harg
  refine ⟨fun hr => ?_, fun hr hc => ?_, fun hr hc hv => ⟨?_, ?_, ?_, ?_, ?_, ?_⟩, fun hr hc hv => ?_⟩
  · rw [clockEdge_reset hr, ← hl]
    rfl
  · rw [clockEdge_microStep hl hr hc]
    rfl
  · rintro rfl
    exact clockEdge_accept hl hr hc hv (i := .init) (decode_ok.2 ⟨hop, rfl⟩) rfl
  · rintro rfl
    exact clockEdge_seed hl hr hc hv (decode_ok.2 ⟨hop, congrArg Instr.seed harg⟩)
  · rintro rfl
    exact clockEdge_accept hl hr hc hv (i := .bit) (decode_ok.2 ⟨hop, rfl⟩) rfl
  · rintro rfl
    have hdone : decide (arg = 0) = (arg.toNat == 0) := by
      rw [Bool.eq_iff_iff, beq_iff_eq, decide_eq_true_iff, ← BitVec.toNat_inj]
      rfl
    rw [hdone]
    exact clockEdge_bits hl hr hc hv (decode_ok.2 ⟨hop, congrArg Instr.bits harg⟩)
  · rintro rfl
    exact clockEdge_accept hl hr hc hv (i := .byte) (decode_ok.2 ⟨hop, rfl⟩) rfl
  · intro h5
    exact clockEdge_accept_refused hl hr hc hv (.inl (commandOf_error.2 ⟨by rwa [hop], rfl⟩))
  · rw [clockEdge_nothingPresented hl hc hr hv, ← hc]
    rfl

end Sys2Proof.Machine
end
